-- ==== Sys2Proof/Word.lean ====
section
/-! DEFINITION. The word types of the block: command words, bytes, characters, bit strings, strings. -/

namespace Sys2Proof

/-- A command word, 32 bits, bit 31 the most significant (30_encoding R60). -/
abbrev Word := BitVec 32

/-- An 8-bit field: opcode byte, count `n`, immediate, HDR (R61, R25). -/
abbrev Byte := BitVec 8

/-- A character: an unsigned 7-bit code point, 0 to 127 (00_scope R7). -/
abbrev Char7 := BitVec 7

/-- A bit string (00_scope R6). Index 0 is the first, leftmost, most significant bit. -/
abbrev Bits := List Bool

/-- A string (00_scope R7): a finite sequence of characters, first character first. -/
abbrev Text := List Char7

/-- An ASCII literal as a string of the block (00_scope R7). -/
def ascii (s : String) : Text := s.toList.map fun c => BitVec.ofNat 7 c.toNat

end Sys2Proof
end

