-- ==== Sys2Proof/Syntax.lean ====
section
/-! DEFINITION. The 18 commands of 30_encoding R63, one constructor per row of spec/opcode_table.json, with the
operands of each in the order of the assembler (R67). -/

namespace Sys2Proof

/-- A text register number: T0 to T3 (10_state R23; the fields `ta`, `tb` of R61). -/
inductive TReg where
  | t0
  | t1
  | t2
  | t3
deriving DecidableEq, Repr

/-- A partition-table family: 0 SGTIN, 1 SSCC (the field `fam` of R61). -/
inductive Family where
  | sgtin
  | sscc
deriving DecidableEq, Repr

/-- The 18 opcodes (R63), named by their mnemonics. -/
inductive Opcode where
  | rst
  | clr
  | rew
  | enci
  | encii
  | deci
  | encs
  | decs
  | b2h
  | h2b
  | encp
  | decp
  | chk
  | esg96
  | esg198
  | ess96
  | dsg
  | dss
deriving DecidableEq, Repr

/-- A command with its operands (R62, R63). `n` is a count of bits and `imm` a natural number (R64);
`flt` is the 3-bit filter. -/
inductive Instr where
  /-- RST: soft reset (R180) -/
  | rst
  /-- CLR: empty the frame buffer (R181) -/
  | clr
  /-- REW: rewind the read cursor (R182) -/
  | rew
  /-- ENCI Ta, n (R102) -/
  | enci (ta : TReg) (n : Nat)
  /-- ENCII imm, n (R103) -/
  | encii (imm n : Nat)
  /-- DECI Ta, n (R104) -/
  | deci (ta : TReg) (n : Nat)
  /-- ENCS Ta, n (R112) -/
  | encs (ta : TReg) (n : Nat)
  /-- DECS Ta, n (R113) -/
  | decs (ta : TReg) (n : Nat)
  /-- B2H Ta (R122) -/
  | b2h (ta : TReg)
  /-- H2B Ta, n (R123) -/
  | h2b (ta : TReg) (n : Nat)
  /-- ENCP fam, Ta, Tb (R137) -/
  | encp (fam : Family) (ta tb : TReg)
  /-- DECP fam, Ta, Tb (R138) -/
  | decp (fam : Family) (ta tb : TReg)
  /-- CHK Ta, Tb (R151): source, destination -/
  | chk (ta tb : TReg)
  /-- ESG96 flt (R162) -/
  | esg96 (flt : BitVec 3)
  /-- ESG198 flt (R163) -/
  | esg198 (flt : BitVec 3)
  /-- ESS96 flt (R165) -/
  | ess96 (flt : BitVec 3)
  /-- DSG (R167) -/
  | dsg
  /-- DSS (R168) -/
  | dss
deriving DecidableEq, Repr

/-- The opcode of a command. -/
def Instr.opcode : Instr → Opcode
  | .rst => .rst
  | .clr => .clr
  | .rew => .rew
  | .enci _ _ => .enci
  | .encii _ _ => .encii
  | .deci _ _ => .deci
  | .encs _ _ => .encs
  | .decs _ _ => .decs
  | .b2h _ => .b2h
  | .h2b _ _ => .h2b
  | .encp _ _ _ => .encp
  | .decp _ _ _ => .decp
  | .chk _ _ => .chk
  | .esg96 _ => .esg96
  | .esg198 _ => .esg198
  | .ess96 _ => .ess96
  | .dsg => .dsg
  | .dss => .dss

end Sys2Proof
end

