-- ==== Sys2Proof/WellFormed.lean ====
section
/-! DEFINITION. When a command term is one that a command word can spell: `n` and `imm` fit their 8-bit fields
(30_encoding R61, R64), and DECP names two different registers (R62 condition (c)). -/

namespace Sys2Proof

/-- A value of an 8-bit field, 0 to 255 (R61). -/
def fitsByte (v : Nat) : Bool := decide (v < 256)

/-- The command is the reading of some legal word (R62). -/
def Instr.wellFormed : Instr → Bool
  | .enci _ n => fitsByte n
  | .encii imm n => fitsByte imm && fitsByte n
  | .deci _ n => fitsByte n
  | .encs _ n => fitsByte n
  | .decs _ n => fitsByte n
  | .h2b _ n => fitsByte n
  | .decp _ ta tb => decide (ta ≠ tb)
  | .rst => true
  | .clr => true
  | .rew => true
  | .b2h _ => true
  | .encp _ _ _ => true
  | .chk _ _ => true
  | .esg96 _ => true
  | .esg198 _ => true
  | .ess96 _ => true
  | .dsg => true
  | .dss => true

end Sys2Proof
end

