-- ==== Sys2Proof/Decode.lean ====
section
/-! DEFINITION. The command word (30_encoding R60 to R67): fields, the opcode map, the decoder (total, refusing
by name), and the encoder. -/

namespace Sys2Proof

/-- Why a word is illegal (R62, R65). Every reason raises the same `Value(V_ILLCMD)` (log entry 18). -/
inductive Illegal where
  /-- (a) fails: `W[31:24]` is none of the 18 opcodes -/
  | unknownOpcode
  /-- (b) fails: a field the command does not use is not 0 -/
  | unusedField
  /-- (c) fails: DECP with `ta = tb` -/
  | sameDestination
deriving DecidableEq, Repr

/-! ### Fields (R61) -/

/-- `W[31:24]` -/
def fieldOp (w : Word) : Byte := w.extractLsb' 24 8
/-- `W[23:22]` -/
def fieldTa (w : Word) : BitVec 2 := w.extractLsb' 22 2
/-- `W[21:20]` -/
def fieldTb (w : Word) : BitVec 2 := w.extractLsb' 20 2
/-- `W[19:17]` -/
def fieldFlt (w : Word) : BitVec 3 := w.extractLsb' 17 3
/-- `W[16:16]` -/
def fieldFam (w : Word) : BitVec 1 := w.extractLsb' 16 1
/-- `W[15:8]` -/
def fieldN (w : Word) : Byte := w.extractLsb' 8 8
/-- `W[7:0]` -/
def fieldImm (w : Word) : Byte := w.extractLsb' 0 8

/-- The word with the given fields, most significant field first (R61). -/
def wordOf (op : Byte) (ta tb : BitVec 2) (flt : BitVec 3) (fam : BitVec 1) (n imm : Byte) : Word :=
  op ++ ta ++ tb ++ flt ++ fam ++ n ++ imm

/-- The text register a 2-bit field selects (R61). -/
def TReg.ofBits (b : BitVec 2) : TReg :=
  match b.toNat with
  | 0 => .t0
  | 1 => .t1
  | 2 => .t2
  | _ => .t3

/-- The number of a text register (R61). -/
def TReg.bits : TReg → BitVec 2
  | .t0 => 0
  | .t1 => 1
  | .t2 => 2
  | .t3 => 3

/-- The family the `fam` bit selects: 0 SGTIN, 1 SSCC (R61). -/
def Family.ofBit (b : BitVec 1) : Family := if b = 0 then .sgtin else .sscc

/-- The `fam` bit of a family (R61). -/
def Family.bit : Family → BitVec 1
  | .sgtin => 0
  | .sscc => 1

/-! ### The opcode map (R63) -/

/-- The column "op" of R63. -/
def Opcode.byte : Opcode → Byte
  | .rst => 0x01
  | .clr => 0x02
  | .rew => 0x03
  | .enci => 0x10
  | .encii => 0x11
  | .deci => 0x12
  | .encs => 0x18
  | .decs => 0x19
  | .b2h => 0x20
  | .h2b => 0x21
  | .encp => 0x28
  | .decp => 0x29
  | .chk => 0x30
  | .esg96 => 0x40
  | .esg198 => 0x41
  | .ess96 => 0x42
  | .dsg => 0x48
  | .dss => 0x49

/-- The column "mask" of R63: the opcode byte and every field the command does not use. -/
def Opcode.mask : Opcode → Word
  | .rst => 0xFFFFFFFF
  | .clr => 0xFFFFFFFF
  | .rew => 0xFFFFFFFF
  | .enci => 0xFF3F00FF
  | .encii => 0xFFFF0000
  | .deci => 0xFF3F00FF
  | .encs => 0xFF3F00FF
  | .decs => 0xFF3F00FF
  | .b2h => 0xFF3FFFFF
  | .h2b => 0xFF3F00FF
  | .encp => 0xFF0EFFFF
  | .decp => 0xFF0EFFFF
  | .chk => 0xFF0FFFFF
  | .esg96 => 0xFFF1FFFF
  | .esg198 => 0xFFF1FFFF
  | .ess96 => 0xFFF1FFFF
  | .dsg => 0xFFFFFFFF
  | .dss => 0xFFFFFFFF

/-- The column "match" of R63: the opcode byte over zeros. -/
def Opcode.pattern (o : Opcode) : Word := o.byte ++ (0 : BitVec 24)

/-- The rows of R63, in its order. -/
def Opcode.all : List Opcode :=
  [.rst, .clr, .rew, .enci, .encii, .deci, .encs, .decs, .b2h, .h2b, .encp, .decp, .chk, .esg96, .esg198,
   .ess96, .dsg, .dss]

/-- The opcode whose byte is `b`, if it is one of the 18. -/
def Opcode.ofByte (b : Byte) : Option Opcode := Opcode.all.find? fun o => o.byte == b

/-- The mnemonic of R63. -/
def Opcode.mnemonic : Opcode → String
  | .rst => "RST"
  | .clr => "CLR"
  | .rew => "REW"
  | .enci => "ENCI"
  | .encii => "ENCII"
  | .deci => "DECI"
  | .encs => "ENCS"
  | .decs => "DECS"
  | .b2h => "B2H"
  | .h2b => "H2B"
  | .encp => "ENCP"
  | .decp => "DECP"
  | .chk => "CHK"
  | .esg96 => "ESG96"
  | .esg198 => "ESG198"
  | .ess96 => "ESS96"
  | .dsg => "DSG"
  | .dss => "DSS"

/-! ### Decoding (R62) -/

/-- The operands of a word that matches the row of `o` (R63 column "uses", R64); for DECP, condition (c) of R62. -/
def operands (o : Opcode) (w : Word) : Except Illegal Instr :=
  let ta := TReg.ofBits (fieldTa w)
  let tb := TReg.ofBits (fieldTb w)
  let fam := Family.ofBit (fieldFam w)
  let n := (fieldN w).toNat
  match o with
  | .rst => .ok .rst
  | .clr => .ok .clr
  | .rew => .ok .rew
  | .enci => .ok (.enci ta n)
  | .encii => .ok (.encii (fieldImm w).toNat n)
  | .deci => .ok (.deci ta n)
  | .encs => .ok (.encs ta n)
  | .decs => .ok (.decs ta n)
  | .b2h => .ok (.b2h ta)
  | .h2b => .ok (.h2b ta n)
  | .encp => .ok (.encp fam ta tb)
  | .decp => if ta = tb then .error .sameDestination else .ok (.decp fam ta tb)
  | .chk => .ok (.chk ta tb)
  | .esg96 => .ok (.esg96 (fieldFlt w))
  | .esg198 => .ok (.esg198 (fieldFlt w))
  | .ess96 => .ok (.ess96 (fieldFlt w))
  | .dsg => .ok .dsg
  | .dss => .ok .dss

/-- `decode(W)` (R62), total on all 2^32 words: (a) the opcode is one of the 18, (b) `W AND mask = match`,
(c) DECP names two registers. -/
def decode (w : Word) : Except Illegal Instr :=
  match Opcode.ofByte (fieldOp w) with
  | none => .error .unknownOpcode
  | some o => if w &&& o.mask = o.pattern then operands o w else .error .unusedField

/-! ### Encoding (R61, R63) -/

/-- The word of a command: its fields as R67 lists them, every other field 0. -/
def encode (i : Instr) : Word :=
  let op := i.opcode.byte
  match i with
  | .rst => wordOf op 0 0 0 0 0 0
  | .clr => wordOf op 0 0 0 0 0 0
  | .rew => wordOf op 0 0 0 0 0 0
  | .enci ta n => wordOf op ta.bits 0 0 0 (BitVec.ofNat 8 n) 0
  | .encii imm n => wordOf op 0 0 0 0 (BitVec.ofNat 8 n) (BitVec.ofNat 8 imm)
  | .deci ta n => wordOf op ta.bits 0 0 0 (BitVec.ofNat 8 n) 0
  | .encs ta n => wordOf op ta.bits 0 0 0 (BitVec.ofNat 8 n) 0
  | .decs ta n => wordOf op ta.bits 0 0 0 (BitVec.ofNat 8 n) 0
  | .b2h ta => wordOf op ta.bits 0 0 0 0 0
  | .h2b ta n => wordOf op ta.bits 0 0 0 (BitVec.ofNat 8 n) 0
  | .encp fam ta tb => wordOf op ta.bits tb.bits 0 fam.bit 0 0
  | .decp fam ta tb => wordOf op ta.bits tb.bits 0 fam.bit 0 0
  | .chk ta tb => wordOf op ta.bits tb.bits 0 0 0 0
  | .esg96 flt => wordOf op 0 0 flt 0 0 0
  | .esg198 flt => wordOf op 0 0 flt 0 0 0
  | .ess96 flt => wordOf op 0 0 flt 0 0 0
  | .dsg => wordOf op 0 0 0 0 0 0
  | .dss => wordOf op 0 0 0 0 0 0

/-- The one legal RST word, 0x01000000 (46_control R180, 60_exceptions R207). -/
def rstWord : Word := 0x01000000

/-- A table word as a command word: its low `nbits` bits, the rest 0. -/
def tableWord (nbits w : Nat) : Word := BitVec.ofNat 32 (w % 2 ^ nbits)

/-- What the decoder reads from the table word `w`; the block has no byte order of a command word (R60). -/
def decodeTableWord (nbits w : Nat) : Option Instr := (decode (tableWord nbits w)).toOption

end Sys2Proof
end

