-- ==== Sys2Proof/Config.lean ====
section
/-! DEFINITION. The open parameters of the block (00_scope R5; 92 D5, D17): capacities and the partition ROM.
A model takes them as configuration; `Config.wf` is all that may be assumed of them. -/

namespace Sys2Proof

/-- A partition entry `(p, b1, d1, b2, d2)` (43_partition R130). -/
structure PartEntry where
  /-- partition index -/
  p : Nat
  /-- company-prefix bit width -/
  b1 : Nat
  /-- company-prefix digit width -/
  d1 : Nat
  /-- companion-field bit width -/
  b2 : Nat
  /-- companion-field digit width -/
  d2 : Nat
deriving DecidableEq, Repr

/-- The parameters of 00_scope R5. `NT` is fixed at 4 by the 2-bit register fields. -/
structure Config where
  /-- capacity of FB in bits -/
  fbcap : Nat
  /-- capacity of a text register in characters -/
  txcap : Nat
  /-- the partition ROM of family SGTIN -/
  ptSgtin : List PartEntry
  /-- the partition ROM of family SSCC -/
  ptSscc : List PartEntry
deriving DecidableEq, Repr

/-- What R130 fixes of the entry of index `p` in a table whose two digit widths sum to `digits`
(13 SGTIN, 17 SSCC) and whose segment has `total` bits (47, 61). Both bit widths are positive because
`decPart` applies `decInt`, defined on non-empty bit strings only, to both slices (R136, 40_integer R101; DEDUCED, log
entry 11). -/
def PartEntry.fits (digits total p : Nat) (e : PartEntry) : Bool :=
  decide (e.p = p ∧ e.d1 = 12 - p ∧ e.d2 = digits - e.d1 ∧ 3 + e.b1 + e.b2 = total ∧ 0 < e.b1 ∧ 0 < e.b2)

/-- R130: seven entries, indices 0 to 6 in order, each as `PartEntry.fits` says. -/
def tableFits (digits total : Nat) (t : List PartEntry) : Bool :=
  t.length == 7 && (List.range 7).all fun p => (t[p]?).any (PartEntry.fits digits total p)

/-- The constraints of R5 and R130. `TXCAP >= ceil(FBCAP * log10 2)` is written `2 ^ FBCAP <= 10 ^ TXCAP`
and `TXCAP >= ceil(FBCAP / 4)` is written `FBCAP <= 4 * TXCAP`. -/
def Config.wf (c : Config) : Bool :=
  decide (198 ≤ c.fbcap ∧ c.fbcap ≤ 255 ∧ 2 ^ c.fbcap ≤ 10 ^ c.txcap ∧ c.fbcap ≤ 4 * c.txcap ∧ 20 ≤ c.txcap)
    && tableFits 13 47 c.ptSgtin && tableFits 17 61 c.ptSscc

/-- The default table PT_SGTIN (43_partition R131). The columns b1 and b2 of every row but p = 5 are
PRESUMED by the spec itself (93 G1; log entry 2). -/
def defaultSgtin : List PartEntry :=
  [⟨0, 40, 12, 4, 1⟩, ⟨1, 37, 11, 7, 2⟩, ⟨2, 34, 10, 10, 3⟩, ⟨3, 30, 9, 14, 4⟩, ⟨4, 27, 8, 17, 5⟩,
   ⟨5, 24, 7, 20, 6⟩, ⟨6, 20, 6, 24, 7⟩]

/-- The default table PT_SSCC (43_partition R132). The columns b1 and b2 of every row but p = 5 are
PRESUMED by the spec itself (93 G2; log entry 2). -/
def defaultSscc : List PartEntry :=
  [⟨0, 40, 12, 18, 5⟩, ⟨1, 37, 11, 21, 6⟩, ⟨2, 34, 10, 24, 7⟩, ⟨3, 30, 9, 28, 8⟩, ⟨4, 27, 8, 31, 9⟩,
   ⟨5, 24, 7, 34, 10⟩, ⟨6, 20, 6, 38, 11⟩]

/-- The default configuration (00_scope R5: FBCAP 198, TXCAP 60). -/
def Config.default : Config := ⟨198, 60, defaultSgtin, defaultSscc⟩

end Sys2Proof
end

