-- ==== Sys2Proof/Machine/State.lean ====
section
/-! DEFINITION. The state of the block (10_state R20 to R36), the host's actions (R34), the causes of errors
(60_exceptions R202 to R204), and the reset state (R35). -/

namespace Sys2Proof.Machine

/-- The causes of the three error classes, named as in the tables of R202, R203 and R204. -/
inductive Cause where
  /-- Encoding 1: an integer value is not below `2^n` -/
  | eNofit
  /-- Encoding 2: a string has more than `floor(n / 7)` characters -/
  | eStrlen
  /-- Encoding 3: the company prefix has fewer than 6 or more than 12 characters -/
  | eCplen
  /-- Encoding 4: the serial fails `validSerial96` -/
  | eSerial96
  /-- Encoding 5: a digit-string operand is empty or has a non-digit -/
  | eNonnum
  /-- Encoding 6: an append would pass FBCAP -/
  | eFbfull
  /-- Decoding 1: fewer bits are available than the command needs, or `n > FBCAP` -/
  | dLen
  /-- Decoding 2: the first two hex characters are no header the command decodes -/
  | dHeader
  /-- Decoding 3: the partition index has no entry -/
  | dPart
  /-- Decoding 4: a character outside `"0"`-`"9"`, `"A"`-`"F"` -/
  | dHexchar
  /-- Decoding 5: a decoded field has more digits than its digit width -/
  | dWide
  /-- Decoding 6: DECI with `n = 0` -/
  | dEmpty
  /-- Decoding 7: DECS with `n` not a multiple of 7 -/
  | dGroup
  /-- Value 1: the operand of CHK has a non-digit -/
  | vDigit
  /-- Value 2: the companion field of a composite encode has the wrong length -/
  | vFldlen
  /-- Value 3: the command word is illegal -/
  | vIllcmd
deriving DecidableEq, Repr

/-- One action of the host (R34), taken between commands. -/
inductive HostAction where
  /-- `HostLoadT(i, s)` -/
  | loadT (i : TReg) (s : Text)
  /-- `HostReadT(i)` -/
  | readT (i : TReg)
  /-- `HostReadFB()` -/
  | readFB
  /-- `HostReadStatus()` -/
  | readStatus
  /-- `HostCommand(W)` -/
  | command (w : Word)
  /-- hardware reset (70_reset_and_hazards R230) -/
  | hardwareReset
deriving DecidableEq, Repr

/-- What a host read returns (R34). A string and a bit string carry their lengths. -/
inductive HostReply where
  /-- `HostReadT`: the string of a text register -/
  | text (s : Text)
  /-- `HostReadFB`: FB and RC -/
  | frame (fb : Bits) (rc : Nat)
  /-- `HostReadStatus`: ST, FLT and HDR -/
  | status (st : BitVec 16) (flt : BitVec 3) (hdr : Byte)
deriving DecidableEq, Repr

/-- The machine stops with no fault: every error of the spec is recorded in ST and the block goes on (R205),
and every accepted command completes (70_reset_and_hazards R237). So there is no constructor (log entry 10). -/
inductive Fault where
deriving DecidableEq, Repr

/-- Why the model has no move. -/
inductive Refusal where
  /-- An instruction that has no meaning yet, raised only by an arm of `exec`; safe. No arm uses it now. -/
  | notModelled (mnemonic : String)
  /-- Raised by the host action `HostLoadT` with more than TXCAP characters, and by the port's text load with `t_wlen`
  above TXCAP: "outside the model: the host must not attempt it" (R34, R236, 93 U25; log entry 6); safe. No command
  raises it. -/
  | hostTextTooLong
deriving DecidableEq, Repr

/-- The tuple of R20, with the read-only configuration (R5, R27) and the host's side of the port. The bounds of R21 to R23
are the invariant of R36 (log entry 15). -/
structure State where
  /-- the configured parameters and the partition ROM; never written (R27, R231; log entry 1) -/
  cfg : Config
  /-- FB, the frame buffer (R21) -/
  fb : Bits
  /-- RC, the read cursor (R22) -/
  rc : Nat
  /-- T[0] (R23) -/
  t0 : Text
  /-- T[1] (R23) -/
  t1 : Text
  /-- T[2] (R23) -/
  t2 : Text
  /-- T[3] (R23) -/
  t3 : Text
  /-- FLT (R24) -/
  flt : BitVec 3
  /-- HDR (R25) -/
  hdr : Byte
  /-- ST (R26) -/
  st : BitVec 16
  /-- MODEL'S OWN: the host actions still to come, oldest first (R238; log entry 3) -/
  pending : List HostAction
  /-- MODEL'S OWN: what the latest host read returned (R34; log entry 5) -/
  reply : Option HostReply
deriving DecidableEq, Repr

/-- The state right after hardware reset, with the default configuration and no host action to come (R35). -/
def State.reset : State where
  cfg := Config.default
  fb := []
  rc := 0
  t0 := []
  t1 := []
  t2 := []
  t3 := []
  flt := 0
  hdr := 0x00
  st := 0x0000
  pending := []
  reply := none

end Sys2Proof.Machine
end

