-- ==== Sys2Proof/Machine/Operands.lean ====
section
/-! DEFINITION. The pure functions on bit strings and strings that every command is written with
(00_scope R6 to R12). They are total; what they give outside the domain of their rules is a DESIGN CHOICE no step reaches
(log entry 22). -/

namespace Sys2Proof.Machine

/-! ### Bit strings (R6, R9) -/

/-- `zeros(n)` (R6). -/
def zeros (n : Nat) : Bits := List.replicate n false

/-- `b[a..a+n-1]` (R6): `n` bits from index `a`. -/
def slice (b : Bits) (a n : Nat) : Bits := (b.drop a).take n

/-- `uint(b)`: the unsigned value read big-endian (R9). -/
def uint (b : Bits) : Nat := b.foldl (fun v x => 2 * v + x.toNat) 0

/-- The `n` low bits of `v`, most significant first: bit `i` is `floor(v / 2^(n-1-i)) mod 2`
(40_integer R100). -/
def bitsOf (v : Nat) : Nat → Bits
  | 0 => []
  | n + 1 => (v / 2 ^ n % 2 == 1) :: bitsOf v n

/-! ### Digit strings (R8, R10 to R12) -/

/-- The character is one of `"0"` to `"9"`: code points 48 to 57 (R8). -/
def isDigit (c : Char7) : Bool := decide (48 ≤ c.toNat ∧ c.toNat ≤ 57)

/-- `isDigits(s)` (R8); it holds of the empty string. -/
def isDigits (s : Text) : Bool := s.all isDigit

/-- The value of a digit character. -/
def digitVal (c : Char7) : Nat := c.toNat - 48

/-- The digit character of a value 0 to 9. -/
def digitChar (d : Nat) : Char7 := BitVec.ofNat 7 (48 + d)

/-- `intValue(ds)`: the number a digit string spells in decimal (R10). -/
def intValue (ds : Text) : Nat := ds.foldl (fun v c => 10 * v + digitVal c) 0

/-- The decimal digits of `v`, at most `fuel` of them; enough when `v < 10 ^ fuel`. -/
def decDigits : Nat → Nat → Text
  | 0, _ => []
  | fuel + 1, v => if v < 10 then [digitChar v] else decDigits fuel (v / 10) ++ [digitChar (v % 10)]

/-- `dec(v)`: the shortest decimal digit string of `v`, `"0"` for 0 (R11). -/
def dec (v : Nat) : Text := decDigits (v + 1) v

/-- `zpad(ds, w)`: `"0"` characters added on the left up to length `w` (R12). -/
def zpad (ds : Text) (w : Nat) : Text := List.replicate (w - ds.length) (digitChar 0) ++ ds

end Sys2Proof.Machine
end

