-- ==== Sys2Proof/Machine/Flags.lean ====
section
/-! DEFINITION. The status register ST (10_state R26): its fields, the numbers of classes and causes
(60_exceptions R200, R202 to R204), and the value a raise writes (R205). There is no other flag (R32). -/

namespace Sys2Proof.Machine

/-- `ST[1:0]`: 0 NONE, 1 ENCODING, 2 DECODING, 3 VALUE (R26). -/
def stErr (st : BitVec 16) : BitVec 2 := st.extractLsb' 0 2
/-- `ST[5:2]` (R26). -/
def stCause (st : BitVec 16) : BitVec 4 := st.extractLsb' 2 4
/-- `ST[7:6]`, reserved (R26, R29). -/
def stReserved (st : BitVec 16) : BitVec 2 := st.extractLsb' 6 2
/-- `ST[15:8]` (R26). -/
def stEop (st : BitVec 16) : Byte := st.extractLsb' 8 8

/-- The class of a cause (R200, R202 to R204). -/
def Cause.cls : Cause → BitVec 2
  | .eNofit => 1
  | .eStrlen => 1
  | .eCplen => 1
  | .eSerial96 => 1
  | .eNonnum => 1
  | .eFbfull => 1
  | .dLen => 2
  | .dHeader => 2
  | .dPart => 2
  | .dHexchar => 2
  | .dWide => 2
  | .dEmpty => 2
  | .dGroup => 2
  | .vDigit => 3
  | .vFldlen => 3
  | .vIllcmd => 3

/-- The column "code" of R202, R203 and R204. -/
def Cause.code : Cause → BitVec 4
  | .eNofit => 1
  | .eStrlen => 2
  | .eCplen => 3
  | .eSerial96 => 4
  | .eNonnum => 5
  | .eFbfull => 6
  | .dLen => 1
  | .dHeader => 2
  | .dPart => 3
  | .dHexchar => 4
  | .dWide => 5
  | .dEmpty => 6
  | .dGroup => 7
  | .vDigit => 1
  | .vFldlen => 2
  | .vIllcmd => 3

/-- ST with the given fields and `ST[7:6] = 0` (R26). -/
def stWord (eop : Byte) (cause : BitVec 4) (err : BitVec 2) : BitVec 16 := eop ++ (0 : BitVec 2) ++ cause ++ err

/-- The value of ST after `raise` of `e` in the command with opcode byte `eop` (R205). -/
def raisedStatus (eop : Byte) (e : Cause) : BitVec 16 := stWord eop e.code e.cls

/-- `ST.ERR != NONE`: the block is frozen (R207). -/
def State.frozen (s : State) : Bool := stErr s.st != 0

end Sys2Proof.Machine
end

