-- ==== Sys2Proof/Machine/Ops.lean ====
section
/-! DEFINITION. The named operations over the registers and the frame buffer: text registers, MemRead and MemWrite
(20_memory R44, R45), the composite writes, reset (10_state R35), and `raise` (60_exceptions R205, R206). -/

namespace Sys2Proof.Machine

/-- What a meaning answers. -/
abbrev Result := Host.Outcome State Fault Refusal

/-! ### Text registers (R23) -/

/-- Read `T[i]`. -/
def State.getT (s : State) : TReg → Text
  | .t0 => s.t0
  | .t1 => s.t1
  | .t2 => s.t2
  | .t3 => s.t3

/-- `T[i] <- x`. -/
def State.setT (s : State) (i : TReg) (x : Text) : State :=
  match i with
  | .t0 => { s with t0 := x }
  | .t1 => { s with t1 := x }
  | .t2 => { s with t2 := x }
  | .t3 => { s with t3 := x }

/-! ### The frame buffer (R21, R22, R44, R45) -/

/-- FB as a store of bits; its canonical form is its length bound (R21; log entry 16). -/
abbrev Memory := Bits

/-- `|FB| <= FBCAP` (R21, R36). -/
def Memory.wf (cap : Nat) (m : Memory) : Bool := decide (m.length ≤ cap)

/-- `MemRead(a, n)`, defined when `a + n <= |FB|` (R44); every command tests that first. -/
def State.memRead (s : State) (a n : Nat) : Bits := slice s.fb a n

/-- `MemWrite(|FB|, n, v)`: append (R45); RC is not changed. -/
def State.memAppend (s : State) (v : Bits) : State := { s with fb := s.fb ++ v }

/-- FB replaced whole and RC put at `rc` (R45: "either appended to or replaced whole"). -/
def State.loadFrame (s : State) (x : Bits) (rc : Nat) : State := { s with fb := x, rc := rc }

/-- `RC <- v`. -/
def State.setRC (s : State) (v : Nat) : State := { s with rc := v }

/-- FLT and HDR, written together by DSG and DSS (R24, R25). -/
def State.setFrameInfo (s : State) (flt : BitVec 3) (hdr : Byte) : State := { s with flt := flt, hdr := hdr }

/-! ### Reset (R35) -/

/-- `S <- S_reset`: the registers of R20 at the values of R35. The configuration is not touched (R231), nor are the
host's actions still to come (log entry 14). -/
def State.clearAll (s : State) : State :=
  { s with fb := [], rc := 0, t0 := [], t1 := [], t2 := [], t3 := [], flt := 0, hdr := 0, st := 0 }

/-! ### Errors (R205, R206) -/

/-- `raise Class(CAUSE)` in the command with opcode byte `eop`: ST is written, nothing else (R205). The block has no
saved program counter, vector, handler or mode, and no return beside RST (R205, R212). -/
def State.raise (s : State) (eop : Byte) (e : Cause) : State := { s with st := raisedStatus eop e }

/-- `require c else raise e` (00_scope R13). -/
def require (c : Prop) [Decidable c] (e : Cause) : Except Cause Unit := if c then .ok () else .error e

/-- All-or-nothing (R206): a command that computed its writes makes them, one that failed only records the error.
Either way it completes (R205). EOP is the opcode byte
of the command (log entry 19). -/
def commit (o : Opcode) (s : State) (r : Except Cause State) : Result :=
  match r with
  | .ok s' => .next s'
  | .error e => .next (s.raise o.byte e)

end Sys2Proof.Machine
end

