-- ==== Sys2Proof/Machine/CheckDigit.lean ====
section
/-! DEFINITION. The GS1 check-digit accumulator: chk, CHK (44_checkdigit). -/

namespace Sys2Proof.Machine

/-- The weighted sum of digit values listed from the right end, weights 3 and 1 in turn, the first weight 3 when
`odd` (R150: positions 1st, 3rd, ... from the right weigh 3). -/
def weighted : Bool → List Nat → Nat
  | _, [] => 0
  | odd, x :: xs => x * (if odd then 3 else 1) + weighted (!odd) xs

/-- The digit values of a string from its right end: `x_1, x_2, ...` (R150). -/
def digitsFromRight (ds : Text) : List Nat := ds.reverse.map digitVal

/-- The weighted sum of R150. -/
def checkSum (ds : Text) : Nat := weighted true (digitsFromRight ds)

/-- `chk(ds)` (R150): `(10 - (sum mod 10)) mod 10` as a digit character. -/
def chk (ds : Text) : Char7 := digitChar ((10 - checkSum ds % 10) % 10)

/-- CHK Ta, Tb (R151). -/
def execChk (ta tb : TReg) (s : State) : Result :=
  commit .chk s do
    let ds := s.getT ta
    require (isDigits ds) .vDigit
    return s.setT tb [chk ds]

end Sys2Proof.Machine
end

