-- ==== Sys2Proof/Machine/Control.lean ====
section
/-! DEFINITION. The control commands RST, CLR and REW (46_control). -/

namespace Sys2Proof.Machine

/-- RST (R180): `S <- S_reset`. -/
def execRst (s : State) : Result := .next s.clearAll

/-- CLR (R181): `FB <- ''`, `RC <- 0`. -/
def execClr (s : State) : Result := .next (s.loadFrame [] 0)

/-- REW (R182): `RC <- 0`. -/
def execRew (s : State) : Result := .next (s.setRC 0)

end Sys2Proof.Machine
end

