-- ==== Sys2Proof/Machine/Hex.lean ====
section
/-! DEFINITION. The hex formatter: binToHex, hexToBin, B2H, H2B (42_hex; 30_encoding R76). -/

namespace Sys2Proof.Machine

/-- `hexdigit(v)` for `v` 0 to 15: `"0"` to `"9"`, `"A"` to `"F"` (R120). -/
def hexDigit (v : Nat) : Char7 := if v < 10 then BitVec.ofNat 7 (48 + v) else BitVec.ofNat 7 (55 + v)

/-- One hex digit for each whole group of four bits, first group first. -/
def hexGroups : Bits → Text
  | a :: b :: c :: d :: rest => hexDigit (uint [a, b, c, d]) :: hexGroups rest
  | _ => []

/-- `binToHex(b)` (R120): the final incomplete group is zero-padded on the right. -/
def binToHex (b : Bits) : Text := hexGroups (b ++ zeros ((4 - b.length % 4) % 4))

/-- The character is one of `"0"`-`"9"`, `"A"`-`"F"`; lower case is not (R121; 92 D16). -/
def isHexDigit (c : Char7) : Bool := isDigit c || decide (65 ≤ c.toNat ∧ c.toNat ≤ 70)

/-- Every character is a hex digit (00_scope R8). -/
def isHex (h : Text) : Bool := h.all isHexDigit

/-- `val(c)` of a hex digit: 0 to 15 (R121). -/
def hexVal (c : Char7) : Nat := if isDigit c then c.toNat - 48 else c.toNat - 55

/-- The expansion of `4 * |h|` bits (R121). -/
def hexExpand (h : Text) : Bits := h.flatMap fun c => bitsOf (hexVal c) 4

/-- `hexToBin(h, n)` (R121): the first `n` bits of the expansion; the rest is dropped unexamined (90 C1; 93 Q2). -/
def hexToBin (h : Text) (n : Nat) : Except Cause Bits := do
  require (isHex h) .dHexchar
  require (n ≤ 4 * h.length) .dLen
  return (hexExpand h).take n

/-- B2H Ta (R122). -/
def execB2h (ta : TReg) (s : State) : Result := commit .b2h s (.ok (s.setT ta (binToHex s.fb)))

/-- H2B Ta, n (R123). -/
def execH2b (ta : TReg) (n : Nat) (s : State) : Result :=
  commit .h2b s do
    let h := s.getT ta
    require (isHex h) .dHexchar
    require (n ≤ s.cfg.fbcap ∧ n ≤ 4 * h.length) .dLen
    let x ← hexToBin h n
    return s.loadFrame x 0

end Sys2Proof.Machine
end

