-- ==== Sys2Proof/Machine/Integer.lean ====
section
/-! DEFINITION. The integer bit-slicer: encInt, decInt, ENCI, ENCII, DECI (40_integer). -/

namespace Sys2Proof.Machine

/-- `encInt(v, n)` (R100). -/
def encInt (v n : Nat) : Except Cause Bits := if v < 2 ^ n then .ok (bitsOf v n) else .error .eNofit

/-- `decInt(b)` for a non-empty bit string (R101). -/
def decInt (b : Bits) : Text := dec (uint b)

/-- Append `b` to FB unless FBCAP would be passed (20_memory R45). -/
def State.tryAppend (s : State) (b : Bits) : Except Cause State := do
  require (s.fb.length + b.length ≤ s.cfg.fbcap) .eFbfull
  return s.memAppend b

/-- ENCI Ta, n (R102). -/
def execEnci (ta : TReg) (n : Nat) (s : State) : Result :=
  commit .enci s do
    let ds := s.getT ta
    require (ds ≠ [] ∧ isDigits ds) .eNonnum
    let b ← encInt (intValue ds) n
    s.tryAppend b

/-- ENCII imm, n (R103). -/
def execEncii (imm n : Nat) (s : State) : Result :=
  commit .encii s do
    let b ← encInt imm n
    s.tryAppend b

/-- DECI Ta, n (R104). -/
def execDeci (ta : TReg) (n : Nat) (s : State) : Result :=
  commit .deci s do
    require (1 ≤ n) .dEmpty
    require (s.rc + n ≤ s.fb.length) .dLen
    return (s.setT ta (decInt (s.memRead s.rc n))).setRC (s.rc + n)

end Sys2Proof.Machine
end

