-- ==== Sys2Proof/Machine/Partition.lean ====
section
/-! DEFINITION. The partition-table codec: PT, encPart, decPart, ENCP, DECP (43_partition). -/

namespace Sys2Proof.Machine

/-- The partition ROM of a family (10_state R27). -/
def table (c : Config) : Family → List PartEntry
  | .sgtin => c.ptSgtin
  | .sscc => c.ptSscc

/-- `PT(fam, p)`: the entry of index `p` (R130); none for 7. -/
def PT (c : Config) (fam : Family) (p : Nat) : Option PartEntry := (table c fam).find? fun e => e.p == p

/-- `PT(fam, p)`, failing with `e` where there is no entry: E_CPLEN on encode, D_PART on decode (R134;
log entry 13). -/
def lookup (c : Config) (fam : Family) (p : Nat) (e : Cause) : Except Cause PartEntry :=
  match PT c fam p with
  | some x => .ok x
  | none => .error e

/-- `encPart(fam, f1, f2)` (R135): the length of `f2` is not compared with `d2` (93 Q4). -/
def encPart (c : Config) (fam : Family) (f1 f2 : Text) : Except Cause Bits := do
  require (6 ≤ f1.length ∧ f1.length ≤ 12) .eCplen
  require (isDigits f1) .eNonnum
  require (f2 ≠ [] ∧ isDigits f2) .eNonnum
  let e ← lookup c fam (12 - f1.length) .eCplen
  let x1 ← encInt (intValue f1) e.b1
  let x2 ← encInt (intValue f2) e.b2
  let x0 ← encInt e.p 3
  return x0 ++ x1 ++ x2

/-- `decPart(fam, b)` (R136): only the first `3 + b1 + b2` bits are read. -/
def decPart (c : Config) (fam : Family) (b : Bits) : Except Cause (Text × Text) := do
  require (3 ≤ b.length) .dLen
  let e ← lookup c fam (uint (slice b 0 3)) .dPart
  require (3 + e.b1 + e.b2 ≤ b.length) .dLen
  let s1 := decInt (slice b 3 e.b1)
  let s2 := decInt (slice b (3 + e.b1) e.b2)
  require (s1.length ≤ e.d1 ∧ s2.length ≤ e.d2) .dWide
  return (zpad s1 e.d1, zpad s2 e.d2)

/-- ENCP fam, Ta, Tb (R137). -/
def execEncp (fam : Family) (ta tb : TReg) (s : State) : Result :=
  commit .encp s do
    let seg ← encPart s.cfg fam (s.getT ta) (s.getT tb)
    s.tryAppend seg

/-- DECP fam, Ta, Tb (R138). A word with `ta = tb` is illegal (30_encoding R62); see log entry 12. -/
def execDecp (fam : Family) (ta tb : TReg) (s : State) : Result :=
  commit .decp s do
    let rest := s.memRead s.rc (s.fb.length - s.rc)
    let f ← decPart s.cfg fam rest
    let e ← lookup s.cfg fam (uint (slice rest 0 3)) .dPart
    return ((s.setT ta f.1).setT tb f.2).setRC (s.rc + 3 + e.b1 + e.b2)

end Sys2Proof.Machine
end

