-- ==== Sys2Proof/Machine/StringCodec.lean ====
section
/-! DEFINITION. The 7-bit ASCII string codec: encStr, decStr, ENCS, DECS (41_string). -/

namespace Sys2Proof.Machine

/-- The characters of a string, 7 bits each, most significant bit first, in string order (20_memory R41, R110). -/
def packChars (s : Text) : Bits := s.flatMap fun c => bitsOf c.toNat 7

/-- `encStr(s, n)` (R110): no character is refused; right-padded with zero bits to `n`. -/
def encStr (s : Text) (n : Nat) : Except Cause Bits :=
  if s.length ≤ n / 7 then .ok (packChars s ++ zeros (n - 7 * s.length)) else .error .eStrlen

/-- The whole 7-bit groups of a bit string, in order (R111). DESIGN CHOICE (log entry 22): R111 gives no result for a
length that is not a multiple of 7 (91 N7), and here a short last group is left out; no step reaches that case. -/
def groups7 : Bits → Text
  | a :: b :: c :: d :: e :: f :: g :: rest => BitVec.ofNat 7 (uint [a, b, c, d, e, f, g]) :: groups7 rest
  | _ => []

/-- `decStr(b)` (R111): every zero group is dropped, wherever it stands, and decoding goes on (90 C2; 93 Q1). -/
def decStr (b : Bits) : Text := (groups7 b).filter fun c => c != 0

/-- ENCS Ta, n (R112). -/
def execEncs (ta : TReg) (n : Nat) (s : State) : Result :=
  commit .encs s do
    let b ← encStr (s.getT ta) n
    s.tryAppend b

/-- DECS Ta, n (R113). -/
def execDecs (ta : TReg) (n : Nat) (s : State) : Result :=
  commit .decs s do
    require (n % 7 = 0) .dGroup
    require (s.rc + n ≤ s.fb.length) .dLen
    return (s.setT ta (decStr (s.memRead s.rc n))).setRC (s.rc + n)

end Sys2Proof.Machine
end

