-- ==== Sys2Proof/Machine/Frames.lean ====
section
/-! DEFINITION. The frame sequencer: encSeg, validSerial96, ESG96, ESG198, ESS96, DSG, DSS (45_frames). Fixed registers
(R160): T0 company prefix, T1 companion field, T2 serial, T3 hex text. -/

namespace Sys2Proof.Machine

/-- `encSeg(fam, cp, comp)` (R161): the companion field's length is tested before `encPart`. -/
def encSeg (c : Config) (fam : Family) (cp comp : Text) : Except Cause Bits := do
  require (6 ≤ cp.length ∧ cp.length ≤ 12) .eCplen
  let e ← lookup c fam (12 - cp.length) .eCplen
  require (comp.length = e.d2) .vFldlen
  encPart c fam cp comp

/-- `validSerial96(s)` (R164): numeric, no leading zero unless `"0"` alone, at most `2^38 - 1`. -/
def validSerial96 (s : Text) : Bool :=
  decide (s ≠ []) && isDigits s && (s.head? != some (digitChar 0) || s.length == 1) &&
    decide (intValue s ≤ 274877906943)

/-- `FB <- X`, `RC <- 0`, `T[3] <- binToHex(X)`: how every composite encode ends (R162, R163, R165). -/
def State.emitFrame (s : State) (x : Bits) : State := (s.loadFrame x 0).setT .t3 (binToHex x)

/-- ESG96 flt (R162). -/
def execEsg96 (flt : BitVec 3) (s : State) : Result :=
  commit .esg96 s do
    require (validSerial96 s.t2) .eSerial96
    let seg ← encSeg s.cfg .sgtin s.t0 s.t1
    let h ← encInt 0x30 8
    let f ← encInt flt.toNat 3
    let ser ← encInt (intValue s.t2) 38
    return s.emitFrame (h ++ f ++ seg ++ ser)

/-- ESG198 flt (R163). -/
def execEsg198 (flt : BitVec 3) (s : State) : Result :=
  commit .esg198 s do
    let seg ← encSeg s.cfg .sgtin s.t0 s.t1
    let ser ← encStr s.t2 140
    let h ← encInt 0x36 8
    let f ← encInt flt.toNat 3
    return s.emitFrame (h ++ f ++ seg ++ ser)

/-- ESS96 flt (R165): the numeric test of the companion field comes first. -/
def execEss96 (flt : BitVec 3) (s : State) : Result :=
  commit .ess96 s do
    require (s.t1 ≠ [] ∧ isDigits s.t1) .eNonnum
    let seg ← encSeg s.cfg .sscc s.t0 s.t1
    let h ← encInt 0x31 8
    let f ← encInt flt.toNat 3
    return s.emitFrame (h ++ f ++ seg ++ zeros 24)

/-- DSG (R167): the header is compared as two characters before the text is checked for hex validity. -/
def execDsg (s : State) : Result :=
  commit .dsg s do
    let h := s.t3
    require (h.take 2 = ascii "30" ∨ h.take 2 = ascii "36") .dHeader
    let n := if h.take 2 = ascii "30" then 96 else 198
    let x ← hexToBin h n
    let f ← decPart s.cfg .sgtin (slice x 11 47)
    let ser := if n = 96 then decInt (slice x 58 38) else decStr (slice x 58 140)
    return ((((s.loadFrame x n).setT .t0 f.1).setT .t1 f.2).setT .t2 ser).setFrameInfo
      (BitVec.ofNat 3 (uint (slice x 8 3))) (if n = 96 then 0x30 else 0x36)

/-- DSS (R168): bits 72 to 95 are not examined; RC stops at 72. -/
def execDss (s : State) : Result :=
  commit .dss s do
    let h := s.t3
    require (h.take 2 = ascii "31") .dHeader
    let x ← hexToBin h 96
    let f ← decPart s.cfg .sscc (slice x 11 61)
    return (((s.loadFrame x 72).setT .t0 f.1).setT .t1 f.2).setFrameInfo
      (BitVec.ofNat 3 (uint (slice x 8 3))) 0x31

end Sys2Proof.Machine
end

