-- ==== Sys2Proof/Machine/Dispatch.lean ====
section
/-! DEFINITION. One arm for each command: the third part of `step(S, W)`, "the command's rule runs" (00_scope R15). -/

namespace Sys2Proof.Machine

def exec (i : Instr) (s : State) : Host.Outcome State Fault Refusal :=
  match i with
  | .rst => Sys2Proof.Machine.execRst s
  | .clr => Sys2Proof.Machine.execClr s
  | .rew => Sys2Proof.Machine.execRew s
  | .enci ta n => Sys2Proof.Machine.execEnci ta n s
  | .encii imm n => Sys2Proof.Machine.execEncii imm n s
  | .deci ta n => Sys2Proof.Machine.execDeci ta n s
  | .encs ta n => Sys2Proof.Machine.execEncs ta n s
  | .decs ta n => Sys2Proof.Machine.execDecs ta n s
  | .b2h ta => Sys2Proof.Machine.execB2h ta s
  | .h2b ta n => Sys2Proof.Machine.execH2b ta n s
  | .encp fam ta tb => Sys2Proof.Machine.execEncp fam ta tb s
  | .decp fam ta tb => Sys2Proof.Machine.execDecp fam ta tb s
  | .chk ta tb => Sys2Proof.Machine.execChk ta tb s
  | .esg96 flt => Sys2Proof.Machine.execEsg96 flt s
  | .esg198 flt => Sys2Proof.Machine.execEsg198 flt s
  | .ess96 flt => Sys2Proof.Machine.execEss96 flt s
  | .dsg => Sys2Proof.Machine.execDsg s
  | .dss => Sys2Proof.Machine.execDss s

end Sys2Proof.Machine
end

