-- ==== Sys2Proof/Machine/Host.lean ====
section
/-! DEFINITION. The host's side (10_state R34; 70_reset_and_hazards R230, R234, R236): the actions that are no command,
what happens to a presented word before its command's rule runs (00_scope R15), and the outputs of the port. -/

namespace Sys2Proof.Machine

/-- Take the next host action off the list; the registers keep their values. -/
def State.withPending (s : State) (as : List HostAction) : State := { s with pending := as }

/-- Return a value to the host; the registers keep their values (R34 "no state change"). -/
def State.answer (s : State) (r : HostReply) : State := { s with reply := some r }

/-- `HostLoadT(i, x)` (R34): ignored while frozen (60_exceptions R207); more than TXCAP characters is outside the
model (log entry 6). -/
def hostLoadT (i : TReg) (x : Text) (s : State) : Result :=
  if s.cfg.txcap < x.length then .refused .hostTextTooLong
  else if s.frozen then .next s
  else .next (s.setT i x)

/-- `HostReadT(i)` (R34). -/
def hostReadT (i : TReg) (s : State) : Result := .next (s.answer (.text (s.getT i)))

/-- `HostReadFB()` (R34). -/
def hostReadFB (s : State) : Result := .next (s.answer (.frame s.fb s.rc))

/-- `HostReadStatus()` (R34). -/
def hostReadStatus (s : State) : Result := .next (s.answer (.status s.st s.flt s.hdr))

/-- Hardware reset (R230): allowed always, also while frozen (log entry 8). -/
def hostReset (s : State) : Result := .next s.clearAll

/-- What `step(S, W)` does with a word before the command's rule (R15): a frozen block ignores every word but the legal
RST word, an illegal word raises `Value(V_ILLCMD)`; both settle at a state. Otherwise the command is to run
(log entry 7). -/
def issue (w : Word) (s : State) : Except State Instr :=
  if s.frozen ∧ w ≠ rstWord then .error s
  else
    match decode w with
    | .ok i => .ok i
    | .error _ => .error (s.raise (fieldOp w) .vIllcmd)

/-! ### Outputs of the port (R236; illustrative, log entry 9) -/

/-- `err`: level, equals `ST.ERR != NONE`. -/
def State.portErr (s : State) : Bool := s.frozen

/-- `t_rlen` for `t_sel = i`: 6 bits. DESIGN CHOICE (log entry 21): for 64 characters or more, which only a configuration
with TXCAP above 63 allows (R5), the spec does not say what it carries, and the model takes the length modulo 64. -/
def State.portTLen (s : State) (i : TReg) : BitVec 6 := BitVec.ofNat 6 (s.getT i).length

/-- `t_rdata`: TXCAP characters, character 0 first; positions at and beyond the length read as 0. -/
def State.portTData (s : State) (i : TReg) : Text :=
  s.getT i ++ List.replicate (s.cfg.txcap - (s.getT i).length) 0

/-- `fb_len`. -/
def State.portFbLen (s : State) : Byte := BitVec.ofNat 8 s.fb.length

/-- `fb_data`: FBCAP bits, `FB[0]` at the most significant position; positions at and beyond the length read as 0. -/
def State.portFbData (s : State) : Bits := s.fb ++ zeros (s.cfg.fbcap - s.fb.length)

/-- `rc`. -/
def State.portRc (s : State) : Byte := BitVec.ofNat 8 s.rc

/-- `t_we` with the inputs `t_sel`, `t_wlen` and `t_wdata` (TXCAP characters): HostLoadT of the first `t_wlen` characters
presented. A `t_wlen` above TXCAP is outside the model, whatever `t_wdata` holds (R236; log entry 6). -/
def portLoad (sel : TReg) (wlen : BitVec 6) (wdata : Text) (s : State) : Result :=
  if s.cfg.txcap < wlen.toNat then .refused .hostTextTooLong else hostLoadT sel (wdata.take wlen.toNat) s

end Sys2Proof.Machine
end

