-- ==== Sys2Proof/Machine/Step.lean ====
section
/-! DEFINITION. One step of the machine: the next host action (10_state R34), taken whole (20_memory R47, R50).
`HostCommand(W)` is `step(S, W)` of 00_scope R15. There is no fetch: the host supplies the word (R31, R53). -/

namespace Sys2Proof.Machine

/-- `HostCommand(w)`: freeze, decode, run (R15). -/
def stepCommand (w : Word) (s : State) : Result :=
  match issue w s with
  | .ok i => exec i s
  | .error s' => .next s'

/-- One host action (R34). -/
def stepAction (a : HostAction) (s : State) : Result :=
  match a with
  | .loadT i x => hostLoadT i x s
  | .readT i => hostReadT i s
  | .readFB => hostReadFB s
  | .readStatus => hostReadStatus s
  | .command w => stepCommand w s
  | .hardwareReset => hostReset s

/-- The next host action, or, when the host has none, waiting: "all state survives waiting" (60_exceptions R216;
log entry 4). -/
def step (s : State) : Host.Outcome State Fault Refusal :=
  match s.pending with
  | [] => .next s
  | a :: rest => stepAction a (s.withPending rest)

/-- `s` with the table word presented as the host's very next command (log entry 3). -/
def State.withFetchWord (s : State) (nbits w : Nat) : State :=
  s.withPending (.command (tableWord nbits w) :: s.pending)

end Sys2Proof.Machine
end

