-- ==== Sys2Proof/Machine/HostSide.lean ====
section
/-! DEFINITION. The rules the spec records for the HOST around the commands: GTIN-14 and SSCC-18 (44_checkdigit R152,
R153), scheme selection, and construction from a GTIN-14 or an SSCC-18 (45_frames R169 to R171). No command performs
them and no step calls them (log entry 17); they let a claim about a host's sequence name what the host composes. -/

namespace Sys2Proof.Machine

/-- `indicator ++ cp ++ itemRef`, the 13 digits before the check digit of a GTIN-14, or with an SSCC's fields the 17
digits before that of an SSCC-18: the first character of the companion field, the prefix, the rest (R152, R153). DESIGN
CHOICE (log entry 17): for a companion field that has not its full `13 - L` or `17 - L` digits the rules give no result,
and the rest is taken as it stands, neither zero-padded nor cut. -/
def keyBody (cp companion : Text) : Text := companion.take 1 ++ cp ++ companion.drop 1

/-- The GTIN-14 of an SGTIN (R152). -/
def gtin14 (cp ii : Text) : Text := keyBody cp ii ++ [chk (keyBody cp ii)]

/-- The SSCC-18 of an SSCC (R153). -/
def sscc18 (cp es : Text) : Text := keyBody cp es ++ [chk (keyBody cp es)]

/-- The two fields of a key of `len` digits with a prefix of `n` digits; the check digit is dropped, not verified. DESIGN
CHOICE (log entry 17): R170 and R171 give no result for an `n` outside 6 to 12, and here the same slices are taken for
every `n`, so that an `n` of `len - 1` or more puts the check digit into the prefix. -/
def splitKey (len : Nat) (k : Text) (n : Nat) : Option (Text × Text) :=
  if k.length = len then some ((k.drop 1).take n, k.take 1 ++ (k.drop (n + 1)).take (len - 2 - n)) else none

/-- `fromGTIN` (R170): T0 and T1 from a GTIN-14, which must have exactly 14 digits, and a prefix length. None for
another text: DESIGN CHOICE (log entry 17). -/
def fromGTIN (g : Text) (n : Nat) : Option (Text × Text) := if isDigits g then splitKey 14 g n else none

/-- `fromSSCC` (R171): T0 and T1 from an SSCC-18 and a prefix length. None for a text that has not
18 characters, and no test for digits: DESIGN CHOICE (log entry 17). -/
def fromSSCC (c : Text) (n : Nat) : Option (Text × Text) := splitKey 18 c n

/-- Scheme selection when none was asked for (R169; 93 Q6). -/
def selectEncode (serial : Text) (flt : BitVec 3) : Instr :=
  if serial ≠ [] ∧ isDigits serial then .esg96 flt else .esg198 flt

/-- The "dispatcher external to this core" (R169): the decode command for a header; none for another header:
DESIGN CHOICE (log entry 17). -/
def selectDecode (h : Text) : Option Instr :=
  if h.take 2 = ascii "30" ∨ h.take 2 = ascii "36" then some .dsg
  else if h.take 2 = ascii "31" then some .dss else none

end Sys2Proof.Machine
end

