-- ==== Sys2Proof/Safety.lean ====
section
/-! DEFINITION. What claims call a good state: the invariant of 10_state R36, and a run that succeeds
(70_reset_and_hazards R238). -/

namespace Sys2Proof.Machine

/-- The ST part of R36: `ST[7:6] = 0`; `ERR = NONE` implies CAUSE and EOP are 0; `ERR != NONE` implies `CAUSE != 0`. -/
def statusInv (st : BitVec 16) : Prop :=
  stReserved st = 0 ∧ (stErr st = 0 → stCause st = 0 ∧ stEop st = 0) ∧ (stErr st ≠ 0 → stCause st ≠ 0)

/-- R36, for a configuration that meets R5 and R130. (That every character is in 0 to 127 is in the type `Char7`.) -/
structure State.Inv (s : State) : Prop where
  cfg_wf : s.cfg.wf = true
  fb_fits : Memory.wf s.cfg.fbcap s.fb = true
  rc_le : s.rc ≤ s.fb.length
  text_fits : ∀ i, (s.getT i).length ≤ s.cfg.txcap
  status : statusInv s.st

/-- "A run succeeds when its end state has `ST.ERR = NONE`" (R238). -/
def State.succeeded (s : State) : Prop := stErr s.st = 0

/-- The action clears the error record: the legal RST word or hardware reset (R207, R212). -/
def HostAction.clears : HostAction → Bool
  | .command w => decide (w = rstWord)
  | .hardwareReset => true
  | .loadT _ _ => false
  | .readT _ => false
  | .readFB => false
  | .readStatus => false

/-- The registers of R20: what a frozen block keeps. -/
def State.sameRegisters (s s' : State) : Prop :=
  s'.fb = s.fb ∧ s'.rc = s.rc ∧ (∀ i, s'.getT i = s.getT i) ∧ s'.flt = s.flt ∧ s'.hdr = s.hdr ∧ s'.st = s.st

end Sys2Proof.Machine
end

