-- ==== Sys2Proof/Certificates/Slice0/Obligations.lean ====
section
/-! DEFINITION. The statements for the provers, from the numbered rules of spec/. The helpers in `Sys2Proof.Spec` say
in the spec's own numbers and words what a statement needs; they use the model's state, `exec`, `step`, and its pure
readers `uint`, `slice`, `intValue`, `isDigits`, and no meaning's own computation. -/

namespace Sys2Proof.Spec

open Sys2Proof.Machine

/-- ST with EOP in bits 15:8, CAUSE in 5:2, ERR in 1:0 (10_state R26). -/
def statusOf (eop cause err : Nat) : BitVec 16 := BitVec.ofNat 16 (eop * 256 + cause * 4 + err)

/-- The command completes in error: ST is written and nothing else changes (60_exceptions R205). -/
def FailsWith (i : Instr) (s : State) (eop cause err : Nat) : Prop :=
  exec i s = .next { s with st := statusOf eop cause err }

/-- A non-empty digit string. -/
abbrev Numeral (ds : Text) : Prop := ds ≠ [] ∧ isDigits ds = true

/-- 45_frames R164, the sgtin-96 validation; 48 is the character `"0"`. -/
abbrev ValidSerial96 (t : Text) : Prop := Numeral t ∧ (t.head? ≠ some 48 ∨ t.length = 1) ∧ intValue t ≤ 274877906943

/-- `ds` is the shortest decimal digit string of `v` (00_scope R11). -/
abbrev Shortest (v : Nat) (ds : Text) : Prop :=
  Numeral ds ∧ intValue ds = v ∧ (ds.head? ≠ some 48 ∨ ds.length = 1)

/-- `ds` is the decimal of `v`, zero-padded to `w` digits (R12). -/
abbrev Padded (w v : Nat) (ds : Text) : Prop := ds.length = w ∧ isDigits ds = true ∧ intValue ds = v

/-- The field of `n` bits at index `a`, as a number (30_encoding R70 to R73). -/
def field (x : Bits) (a n : Nat) : Nat := uint (slice x a n)

/-- The sixteen hex digits in order of value (42_hex R120). -/
def hexDigits : Text := ascii "0123456789ABCDEF"

/-- Every character is an upper-case hex digit. -/
abbrev HexText (h : Text) : Prop := ∀ c ∈ h, c ∈ hexDigits

/-- Hex character `k` spells bits `4k` to `4k+3`, most significant first (20_memory R41), as far as `x` goes. -/
def Spells (h : Text) (x : Bits) : Prop :=
  ∀ k < x.length, ∃ v < 16, hexDigits[v]? = h[k / 4]? ∧ x[k]? = some (v.testBit (3 - k % 4))

/-- `h` is the hex text of `x`: `ceil(|x| / 4)` characters, the last group padded with zeros (R120). -/
def HexOf (x : Bits) (h : Text) : Prop :=
  h.length = (x.length + 3) / 4 ∧ ∀ k < h.length, h[k]? = hexDigits[uint (slice (x ++ zeros 3) (4 * k) 4)]?

/-- The non-zero ones of the `k` characters of 7 bits from index `a`, in order (41_string R111). -/
def characters (x : Bits) (a k : Nat) : Text :=
  ((List.range k).map fun i => BitVec.ofNat 7 (field x (a + 7 * i) 7)).filter fun c => c ≠ 0

/-- `x` holds the characters of `t`, 7 bits each, from index `a`, and then zero bits to its end (R77, R110). -/
def Holds (x : Bits) (a : Nat) (t : Text) : Prop :=
  (∀ i c, t[i]? = some c → field x (a + 7 * i) 7 = c.toNat) ∧ ∀ k, a + 7 * t.length ≤ k → k < x.length → x[k]? = some false

/-- `X[0..7]` is the header, `X[8..10]` the filter, then a segment with the partition index of the entry `e` and the
two numbers in `e`'s bit widths (R70 to R73). -/
def FrameStart (x : Bits) (header : Nat) (flt : BitVec 3) (e : PartEntry) (v1 v2 : Nat) : Prop :=
  field x 0 8 = header ∧ field x 8 3 = flt.toNat ∧ field x 11 3 = e.p ∧ field x 14 e.b1 = v1 ∧
    field x (14 + e.b1) e.b2 = v2

/-- The checks of `encSeg` (45_frames R161, 43_partition R135) in order, in the command `i` with opcode byte `eop`, for a
family whose two digit widths sum to `digits`; `good e` is what is claimed where all pass with the entry `e`. -/
def SegmentChecks (i : Instr) (s : State) (eop : Nat) (fam : Family) (digits : Nat) (good : PartEntry → Prop) : Prop :=
  ((s.t0.length < 6 ∨ 12 < s.t0.length) → FailsWith i s eop 3 1) ∧
  (6 ≤ s.t0.length → s.t0.length ≤ 12 → s.t1.length ≠ digits - s.t0.length → FailsWith i s eop 2 3) ∧
  (6 ≤ s.t0.length → s.t0.length ≤ 12 → s.t1.length = digits - s.t0.length →
    (isDigits s.t0 = false ∨ isDigits s.t1 = false → FailsWith i s eop 5 1) ∧
    (isDigits s.t0 = true → isDigits s.t1 = true →
      ∃ e ∈ table s.cfg fam, e.p = 12 - s.t0.length ∧
        (2 ^ e.b1 ≤ intValue s.t0 ∨ 2 ^ e.b2 ≤ intValue s.t1 → FailsWith i s eop 1 1) ∧
        (intValue s.t0 < 2 ^ e.b1 → intValue s.t1 < 2 ^ e.b2 → good e)))

/-- The checks of `decPart` (R136) on the segment at index `a` of `x`, of which `len` bits are present, in the command
`i` with opcode byte `eop`; `good e cp comp` is what is claimed where all pass with the entry `e`, for the two zero-padded
fields. -/
def SegmentReads (i : Instr) (s : State) (eop : Nat) (fam : Family) (x : Bits) (a len : Nat)
    (good : PartEntry → Text → Text → Prop) : Prop :=
  (len < 3 → FailsWith i s eop 1 2) ∧
  (3 ≤ len → field x a 3 = 7 → FailsWith i s eop 3 2) ∧
  (3 ≤ len → field x a 3 ≠ 7 →
    ∃ e ∈ table s.cfg fam, e.p = field x a 3 ∧
      (len < 3 + e.b1 + e.b2 → FailsWith i s eop 1 2) ∧
      (3 + e.b1 + e.b2 ≤ len →
        (10 ^ e.d1 ≤ field x (a + 3) e.b1 ∨ 10 ^ e.d2 ≤ field x (a + 3 + e.b1) e.b2 → FailsWith i s eop 5 2) ∧
        (field x (a + 3) e.b1 < 10 ^ e.d1 → field x (a + 3 + e.b1) e.b2 < 10 ^ e.d2 →
          ∃ cp comp, Padded e.d1 (field x (a + 3) e.b1) cp ∧ Padded e.d2 (field x (a + 3 + e.b1) e.b2) comp ∧
            good e cp comp)))

/-- The columns of 10_state R28: which command writes FB. -/
def writesFB : Instr → Bool
  | .rst | .clr | .enci _ _ | .encii _ _ | .encs _ _ | .h2b _ _ | .encp _ _ _ => true
  | .esg96 _ | .esg198 _ | .ess96 _ | .dsg | .dss => true
  | .rew | .deci _ _ | .decs _ _ | .b2h _ | .decp _ _ _ | .chk _ _ => false

/-- R28: which command writes RC. -/
def writesRC : Instr → Bool
  | .rst | .clr | .rew | .deci _ _ | .decs _ _ | .h2b _ _ | .decp _ _ _ => true
  | .esg96 _ | .esg198 _ | .ess96 _ | .dsg | .dss => true
  | .enci _ _ | .encii _ _ | .encs _ _ | .b2h _ | .encp _ _ _ | .chk _ _ => false

/-- R28: which text registers a command writes. -/
def writesT : Instr → List TReg
  | .rst => [.t0, .t1, .t2, .t3]
  | .deci ta _ | .decs ta _ | .b2h ta => [ta]
  | .decp _ ta tb => [ta, tb]
  | .chk _ tb => [tb]
  | .esg96 _ | .esg198 _ | .ess96 _ => [.t3]
  | .dsg => [.t0, .t1, .t2]
  | .dss => [.t0, .t1]
  | .clr | .rew | .enci _ _ | .encii _ _ | .encs _ _ | .h2b _ _ | .encp _ _ _ => []

/-- R28: which command writes FLT and HDR. -/
def writesInfo : Instr → Bool
  | .rst | .dsg | .dss => true
  | .clr | .rew | .enci _ _ | .encii _ _ | .deci _ _ | .encs _ _ | .decs _ _ | .b2h _ | .h2b _ _ => false
  | .encp _ _ _ | .decp _ _ _ | .chk _ _ | .esg96 _ | .esg198 _ | .ess96 _ => false

/-- The opcode map of 30_encoding R63: mnemonic, match, mask. -/
def opcodeMap : List (String × Word × Word) :=
  [("RST", 0x01000000, 0xFFFFFFFF), ("CLR", 0x02000000, 0xFFFFFFFF), ("REW", 0x03000000, 0xFFFFFFFF),
   ("ENCI", 0x10000000, 0xFF3F00FF), ("ENCII", 0x11000000, 0xFFFF0000), ("DECI", 0x12000000, 0xFF3F00FF),
   ("ENCS", 0x18000000, 0xFF3F00FF), ("DECS", 0x19000000, 0xFF3F00FF), ("B2H", 0x20000000, 0xFF3FFFFF),
   ("H2B", 0x21000000, 0xFF3F00FF), ("ENCP", 0x28000000, 0xFF0EFFFF), ("DECP", 0x29000000, 0xFF0EFFFF),
   ("CHK", 0x30000000, 0xFF0FFFFF), ("ESG96", 0x40000000, 0xFFF1FFFF), ("ESG198", 0x41000000, 0xFFF1FFFF),
   ("ESS96", 0x42000000, 0xFFF1FFFF), ("DSG", 0x48000000, 0xFFFFFFFF), ("DSS", 0x49000000, 0xFFFFFFFF)]

/-- Condition (c) of R62 on the bits of a word: `W[23:22]` and `W[21:20]` differ. -/
def registersDiffer (w : Word) : Prop := w.toNat / 2 ^ 22 % 4 ≠ w.toNat / 2 ^ 20 % 4

/-- The number of a text register. -/
def regNumber : TReg → Nat
  | .t0 => 0
  | .t1 => 1
  | .t2 => 2
  | .t3 => 3

/-- The number of a family. -/
def famNumber : Family → Nat
  | .sgtin => 0
  | .sscc => 1

/-- The fields `op, ta, tb, flt, fam, n, imm` of a command's word as R63 and R67 give them; a field it does not use is
0 (R61). -/
def fieldsOf : Instr → Nat × Nat × Nat × Nat × Nat × Nat × Nat
  | .rst => (0x01, 0, 0, 0, 0, 0, 0)
  | .clr => (0x02, 0, 0, 0, 0, 0, 0)
  | .rew => (0x03, 0, 0, 0, 0, 0, 0)
  | .enci ta n => (0x10, regNumber ta, 0, 0, 0, n, 0)
  | .encii imm n => (0x11, 0, 0, 0, 0, n, imm)
  | .deci ta n => (0x12, regNumber ta, 0, 0, 0, n, 0)
  | .encs ta n => (0x18, regNumber ta, 0, 0, 0, n, 0)
  | .decs ta n => (0x19, regNumber ta, 0, 0, 0, n, 0)
  | .b2h ta => (0x20, regNumber ta, 0, 0, 0, 0, 0)
  | .h2b ta n => (0x21, regNumber ta, 0, 0, 0, n, 0)
  | .encp fam ta tb => (0x28, regNumber ta, regNumber tb, 0, famNumber fam, 0, 0)
  | .decp fam ta tb => (0x29, regNumber ta, regNumber tb, 0, famNumber fam, 0, 0)
  | .chk ta tb => (0x30, regNumber ta, regNumber tb, 0, 0, 0, 0)
  | .esg96 flt => (0x40, 0, 0, flt.toNat, 0, 0, 0)
  | .esg198 flt => (0x41, 0, 0, flt.toNat, 0, 0, 0)
  | .ess96 flt => (0x42, 0, 0, flt.toNat, 0, 0, 0)
  | .dsg => (0x48, 0, 0, 0, 0, 0, 0)
  | .dss => (0x49, 0, 0, 0, 0, 0, 0)

/-- The cause codes and classes of 60_exceptions R202, R203, R204: cause, code, class. -/
def causeTable : List (Cause × Nat × Nat) :=
  [(.eNofit, 1, 1), (.eStrlen, 2, 1), (.eCplen, 3, 1), (.eSerial96, 4, 1), (.eNonnum, 5, 1), (.eFbfull, 6, 1),
   (.dLen, 1, 2), (.dHeader, 2, 2), (.dPart, 3, 2), (.dHexchar, 4, 2), (.dWide, 5, 2), (.dEmpty, 6, 2), (.dGroup, 7, 2),
   (.vDigit, 1, 3), (.vFldlen, 2, 3), (.vIllcmd, 3, 3)]

/-- ST holds no error, or one of the sixteen causes of R202 to R204 with some opcode byte. -/
def LegalStatus (st : BitVec 16) : Prop :=
  st = 0 ∨ ∃ e ∈ causeTable, ∃ eop < 256, st = statusOf eop e.2.1 e.2.2

/-- Commands run one after another, each from the state the one before left. -/
def runAll : List Instr → State → Result
  | [], s => .next s
  | i :: is, s =>
    match exec i s with
    | .next t => runAll is t
    | .fault r => .fault r
    | .refused r => .refused r

/-- The primitive commands that build the frame of a composite encode (95_test_vectors P1; R70 to R72). -/
def primitives : Instr → List Instr
  | .esg96 flt => [.clr, .encii 0x30 8, .encii flt.toNat 3, .encp .sgtin .t0 .t1, .enci .t2 38, .b2h .t3]
  | .esg198 flt => [.clr, .encii 0x36 8, .encii flt.toNat 3, .encp .sgtin .t0 .t1, .encs .t2 140, .b2h .t3]
  | .ess96 flt => [.clr, .encii 0x31 8, .encii flt.toNat 3, .encp .sscc .t0 .t1, .encii 0 24, .b2h .t3]
  | _ => []

/-- `S_reset` (R35) beside the configuration and the host's side of `s`. -/
def clearedState (s : State) : State :=
  { s with fb := [], rc := 0, t0 := [], t1 := [], t2 := [], t3 := [], flt := 0, hdr := 0, st := 0 }

/-- A text register holds the string; the rest is as after reset. -/
def loaded (t0 t1 t2 t3 : String) : State :=
  { State.reset with t0 := ascii t0, t1 := ascii t1, t2 := ascii t2, t3 := ascii t3 }

end Sys2Proof.Spec

open Sys2Proof Sys2Proof.Machine Sys2Proof.Spec

/-! ### Reset, state, status -/

/-- 10_state R35: after reset, after hardware reset and after RST every register has the value of the table, from any
state; the configuration is unchanged. -/
def Obligations.ResetValues : Prop :=
  (State.reset.fb = [] ∧ State.reset.rc = 0 ∧ (∀ r, State.reset.getT r = []) ∧ State.reset.flt = 0 ∧
    State.reset.hdr = 0x00 ∧ State.reset.st = 0x0000) ∧
  ∀ s : State, ∃ t, exec .rst s = .next t ∧ hostReset s = .next t ∧ t.fb = [] ∧ t.rc = 0 ∧ (∀ r, t.getT r = []) ∧
    t.flt = 0 ∧ t.hdr = 0x00 ∧ t.st = 0x0000 ∧ t.cfg = s.cfg

/-- 10_state R23 "They do not alias one another or FB": a write of one text register changes that register alone. -/
def Obligations.TextRegistersDoNotAlias : Prop :=
  ∀ (s : State) (i j : TReg) (x : Text),
    (s.setT i x).getT j = (if j = i then x else s.getT j) ∧ (s.setT i x).fb = s.fb ∧ (s.setT i x).rc = s.rc ∧
    (s.setT i x).flt = s.flt ∧ (s.setT i x).hdr = s.hdr ∧ (s.setT i x).st = s.st ∧ (s.setT i x).cfg = s.cfg

/-- 10_state R26: where the fields of ST stand. -/
def Obligations.StatusFields : Prop :=
  ∀ eop < 256, ∀ cause < 16, ∀ err < 4,
    (stErr (statusOf eop cause err)).toNat = err ∧ (stCause (statusOf eop cause err)).toNat = cause ∧
    stReserved (statusOf eop cause err) = 0 ∧ (stEop (statusOf eop cause err)).toNat = eop

/-- 60_exceptions R205: a raise writes ERR, CAUSE, EOP and 0 in ST[7:6], and nothing else; the numbers are those of the
tables of R202 to R204. -/
def Obligations.RaiseWritesStatusOnly : Prop :=
  ∀ (s : State) (eop : Byte) (e : Cause), ∃ code cls, (e, code, cls) ∈ causeTable ∧
    s.raise eop e = { s with st := statusOf eop.toNat code cls }

/-- 60_exceptions R206, its half about a raise: a command that changes ST, other than RST, changes nothing else, and EOP is
the command's opcode byte, which the model takes from the constructor (log entry 19). What a command that does not raise
writes is in the statement about each command. -/
def Obligations.AllOrNothing : Prop :=
  ∀ (i : Instr) (s t : State), exec i s = .next t →
    i = .rst ∨ t.st = s.st ∨
      (t = { s with st := t.st } ∧ stErr t.st ≠ 0 ∧ (stEop t.st).toNat = (fieldsOf i).1)

/-- 70_reset_and_hazards R237 "every accepted command completes": no command faults or is refused, in any state. -/
def Obligations.EveryCommandCompletes : Prop := ∀ (i : Instr) (s : State), ∃ t, exec i s = .next t

/-- 10_state R28: a command changes no register that the table does not let it write, and never the configuration. That
it leaves the model's own fields alone is the model's choice (log entries 3, 5, 14). -/
def Obligations.WritesOnlyItsColumns : Prop :=
  ∀ (i : Instr) (s t : State), exec i s = .next t →
    (writesFB i = false → t.fb = s.fb) ∧ (writesRC i = false → t.rc = s.rc) ∧
    (∀ r, r ∉ writesT i → t.getT r = s.getT r) ∧ (writesInfo i = false → t.flt = s.flt ∧ t.hdr = s.hdr) ∧
    t.cfg = s.cfg ∧ t.pending = s.pending ∧ t.reply = s.reply

/-! ### The step -/

/-- 00_scope R15: freeze, then decoding, then the command's rule. What the model adds around `exec` is that the presented
word leaves the list of host actions (log entry 3). -/
def Obligations.StepRunsTheDecodedCommand : Prop :=
  ∀ (s : State) (w : Word) (rest : List HostAction), s.pending = .command w :: rest →
    (stErr s.st ≠ 0 → w ≠ 0x01000000 → step s = .next { s with pending := rest }) ∧
    (stErr s.st = 0 ∨ w = 0x01000000 →
      (∀ x, decode w = .error x →
        step s = .next { s with pending := rest, st := statusOf (w.toNat / 2 ^ 24) 3 3 }) ∧
      (∀ i, decode w = .ok i → step s = exec i { s with pending := rest }))

/-- 10_state R34, the actions that are no command. The reply field, the refusal of a too long load and the idle step are
the model's choices (log entries 5, 6, 4). -/
def Obligations.HostActions : Prop :=
  ∀ (s : State) (rest : List HostAction),
    (∀ i x, s.pending = .loadT i x :: rest → x.length ≤ s.cfg.txcap →
      step s = .next (if stErr s.st = 0 then ({ s with pending := rest } : State).setT i x
        else { s with pending := rest })) ∧
    (∀ i x, s.pending = .loadT i x :: rest → s.cfg.txcap < x.length → step s = .refused .hostTextTooLong) ∧
    (∀ i, s.pending = .readT i :: rest →
      step s = .next { s with pending := rest, reply := some (.text (s.getT i)) }) ∧
    (s.pending = .readFB :: rest → step s = .next { s with pending := rest, reply := some (.frame s.fb s.rc) }) ∧
    (s.pending = .readStatus :: rest →
      step s = .next { s with pending := rest, reply := some (.status s.st s.flt s.hdr) }) ∧
    (s.pending = .hardwareReset :: rest →
      step s = .next { clearedState s with pending := rest }) ∧
    (s.pending = [] → step s = .next s)

/-- 46_control R180: RST gives the reset state from every state, frozen or not; 0x01000000 is its one legal word; the
partition tables stay. That a command word is presented through the list of host actions is the model's choice (log
entry 3). -/
def Obligations.RstActsAlsoWhenFrozen : Prop :=
  (∀ s : State, exec .rst s = .next (clearedState s)) ∧
  (∀ (s : State) rest, s.pending = .command 0x01000000 :: rest →
    step s = exec .rst { s with pending := rest }) ∧
  (∀ w : Word, w.toNat / 2 ^ 24 = 1 → w ≠ 0x01000000 → ∃ x, decode w = .error x)

/-- 60_exceptions R207 over a whole run: a frozen block keeps every register through any number of host actions that
hold no legal RST word and no hardware reset. The list of host actions is the model's choice (log entry 3). -/
def Obligations.FreezeHoldsThroughRun : Prop :=
  ∀ (k : Nat) (s t : State), stErr s.st ≠ 0 → (∀ a ∈ s.pending, a.clears = false) →
    Host.Core.run core k s = .next t → s.sameRegisters t

/-- 70_reset_and_hazards R238: a run that succeeds, and holds no RST and no hardware reset, had no error at any point.
The list of host actions is the model's choice (log entry 3). -/
def Obligations.SucceededRunNeverRaised : Prop :=
  ∀ (k : Nat) (s t : State), (∀ a ∈ s.pending, a.clears = false) → Host.Core.run core k s = .next t → t.succeeded →
    ∀ j ≤ k, ∀ u : State, Host.Core.run core j s = .next u → u.succeeded

/-- 10_state R36 at reset. -/
def Obligations.ResetMeetsInvariant : Prop := State.reset.Inv

/-- 10_state R36: every command and every host action keeps the invariant, from every state that meets it. -/
def Obligations.StepKeepsInvariant : Prop :=
  ∀ s t : State, s.Inv → step s = .next t → t.Inv

/-- 60_exceptions R204 "No other cause code is ever written": from a legal status every step leaves a legal status. -/
def Obligations.StepKeepsLegalStatus : Prop :=
  ∀ s t : State, LegalStatus s.st → step s = .next t → LegalStatus t.st

/-- 10_state R27, 70 R231: no command and no host action writes the configuration or the partition ROM. -/
def Obligations.ConfigurationNeverWritten : Prop :=
  ∀ s t : State, step s = .next t → t.cfg = s.cfg

/-! ### Command words -/

/-- Words of the spec's own examples decode to the commands they stand for; words it calls illegal decode to none. -/
def Obligations.SpecWordsDecode : Prop :=
  decode 0x10802600 = .ok (.enci .t2 38) ∧ decode 0x11000307 = .ok (.encii 7 3) ∧
  decode 0x19400E00 = .ok (.decs .t1 14) ∧ decode 0x21C0C600 = .ok (.h2b .t3 198) ∧
  decode 0x28110000 = .ok (.encp .sscc .t0 .t1) ∧ decode 0x29B00000 = .ok (.decp .sgtin .t2 .t3) ∧
  decode 0x30B00000 = .ok (.chk .t2 .t3) ∧ decode 0x400E0000 = .ok (.esg96 7) ∧ decode 0x01000000 = .ok .rst ∧
  decode 0x00000000 = .error .unknownOpcode ∧ decode 0x31000000 = .error .unknownOpcode ∧
  decode 0x01000001 = .error .unusedField ∧ decode 0x29500000 = .error .sameDestination

/-- 30_encoding R62, R63: a word is legal exactly when it matches a row of the opcode map (and names two registers for
DECP), and it decodes to that row's command. -/
def Obligations.LegalWordsAreTheOpcodeMap : Prop :=
  (∀ (w : Word) (i : Instr), decode w = .ok i → ∃ r ∈ opcodeMap, i.opcode.mnemonic = r.1 ∧ w &&& r.2.2 = r.2.1 ∧
    (r.1 = "DECP" → registersDiffer w)) ∧
  (∀ (w : Word), ∀ r ∈ opcodeMap, w &&& r.2.2 = r.2.1 → (r.1 = "DECP" → registersDiffer w) →
    ∃ i, decode w = .ok i ∧ i.opcode.mnemonic = r.1)

/-- 30_encoding R61: the word of a command as the sum of its fields. -/
def Obligations.EncodedWordIsTheFieldSum : Prop :=
  ∀ i : Instr, i.wellFormed = true →
    (encode i).toNat = (fieldsOf i).1 * 2 ^ 24 + (fieldsOf i).2.1 * 2 ^ 22 + (fieldsOf i).2.2.1 * 2 ^ 20 +
      (fieldsOf i).2.2.2.1 * 2 ^ 17 + (fieldsOf i).2.2.2.2.1 * 2 ^ 16 + (fieldsOf i).2.2.2.2.2.1 * 2 ^ 8 +
      (fieldsOf i).2.2.2.2.2.2

/-- Decoding the word of a well-formed command gives the command back, for all 18 commands and every operand. -/
def Obligations.DecodeEncodeRoundTrip : Prop := ∀ i : Instr, i.wellFormed = true → decode (encode i) = .ok i

/-- A legal word is the word of the command it decodes to, and that command is well formed. -/
def Obligations.EncodeDecodeRoundTrip : Prop :=
  ∀ (w : Word) (i : Instr), decode w = .ok i → i.wellFormed = true ∧ encode i = w

/-! ### Control -/

/-- 46_control R181. -/
def Obligations.ClrEmptiesBuffer : Prop := ∀ s : State, exec .clr s = .next { s with fb := [], rc := 0 }

/-- 46_control R182. -/
def Obligations.RewRewindsCursor : Prop := ∀ s : State, exec .rew s = .next { s with rc := 0 }

/-! ### Integer unit -/

/-- 40_integer R102: the tests in order, and the appended bits. -/
def Obligations.EnciAppendsNumber : Prop :=
  ∀ (ta : TReg) (n : Nat) (s : State),
    (¬ Numeral (s.getT ta) → FailsWith (.enci ta n) s 0x10 5 1) ∧
    (Numeral (s.getT ta) → 2 ^ n ≤ intValue (s.getT ta) → FailsWith (.enci ta n) s 0x10 1 1) ∧
    (Numeral (s.getT ta) → intValue (s.getT ta) < 2 ^ n → s.cfg.fbcap < s.fb.length + n →
      FailsWith (.enci ta n) s 0x10 6 1) ∧
    (Numeral (s.getT ta) → intValue (s.getT ta) < 2 ^ n → s.fb.length + n ≤ s.cfg.fbcap →
      ∃ b : Bits, b.length = n ∧ uint b = intValue (s.getT ta) ∧ exec (.enci ta n) s = .next { s with fb := s.fb ++ b })

/-- 40_integer R103: the tests in order, and the appended bits. -/
def Obligations.EnciiAppendsImmediate : Prop :=
  ∀ (imm n : Nat) (s : State),
    (2 ^ n ≤ imm → FailsWith (.encii imm n) s 0x11 1 1) ∧
    (imm < 2 ^ n → s.cfg.fbcap < s.fb.length + n → FailsWith (.encii imm n) s 0x11 6 1) ∧
    (imm < 2 ^ n → s.fb.length + n ≤ s.cfg.fbcap →
      ∃ b : Bits, b.length = n ∧ uint b = imm ∧ exec (.encii imm n) s = .next { s with fb := s.fb ++ b })

/-- 40_integer R104: the tests in order, the decimal written, and the cursor. -/
def Obligations.DeciReadsNumber : Prop :=
  ∀ (ta : TReg) (n : Nat) (s : State),
    (n = 0 → FailsWith (.deci ta n) s 0x12 6 2) ∧
    (1 ≤ n → s.fb.length < s.rc + n → FailsWith (.deci ta n) s 0x12 1 2) ∧
    (1 ≤ n → s.rc + n ≤ s.fb.length →
      ∃ ds, Shortest (field s.fb s.rc n) ds ∧ exec (.deci ta n) s = .next { s.setT ta ds with rc := s.rc + n })

/-- 40_integer R105: the three laws of `encInt` and `decInt`. -/
def Obligations.IntegerRoundTrips : Prop :=
  (∀ v n, v < 2 ^ n → ∃ b, encInt v n = .ok b ∧ b.length = n ∧ uint b = v ∧ (1 ≤ n → intValue (decInt b) = v)) ∧
  (∀ v n, 2 ^ n ≤ v → encInt v n = .error .eNofit) ∧
  (∀ b : Bits, 1 ≤ b.length → encInt (intValue (decInt b)) b.length = .ok b)

/-- 20_memory R42: a field read as two slices has the value of one read of both. -/
def Obligations.MixedWidthReadsAgree : Prop :=
  ∀ (s : State) (ta tb : TReg) (m n : Nat), 1 ≤ m → 1 ≤ n → ta ≠ tb → s.rc + m + n ≤ s.fb.length →
    ∃ t1 t2 t, exec (.deci ta m) s = .next t1 ∧ exec (.deci tb n) t1 = .next t2 ∧ exec (.deci ta (m + n)) s = .next t ∧
      intValue (t.getT ta) = intValue (t2.getT ta) * 2 ^ n + intValue (t2.getT tb) ∧ t.rc = t2.rc

/-! ### String unit -/

/-- 41_string R112: the tests in order, and the packed field. -/
def Obligations.EncsPacksString : Prop :=
  ∀ (ta : TReg) (n : Nat) (s : State),
    (n / 7 < (s.getT ta).length → FailsWith (.encs ta n) s 0x18 2 1) ∧
    ((s.getT ta).length ≤ n / 7 → s.cfg.fbcap < s.fb.length + n → FailsWith (.encs ta n) s 0x18 6 1) ∧
    ((s.getT ta).length ≤ n / 7 → s.fb.length + n ≤ s.cfg.fbcap →
      ∃ b : Bits, b.length = n ∧ Holds b 0 (s.getT ta) ∧ exec (.encs ta n) s = .next { s with fb := s.fb ++ b })

/-- 41_string R113: the tests in order, the characters written (every zero group dropped), and the cursor. -/
def Obligations.DecsUnpacksString : Prop :=
  ∀ (ta : TReg) (n : Nat) (s : State),
    (n % 7 ≠ 0 → FailsWith (.decs ta n) s 0x19 7 2) ∧
    (n % 7 = 0 → s.fb.length < s.rc + n → FailsWith (.decs ta n) s 0x19 1 2) ∧
    (n % 7 = 0 → s.rc + n ≤ s.fb.length →
      exec (.decs ta n) s = .next { s.setT ta (characters s.fb s.rc (n / 7)) with rc := s.rc + n })

/-- 41_string R114: unpacking a packed string gives its characters that are not of code 0, so the string itself where it
has none of code 0, and not otherwise. -/
def Obligations.StringRoundTrip : Prop :=
  ∀ (t : Text) (n : Nat), n % 7 = 0 → t.length ≤ n / 7 →
    ∃ b, encStr t n = .ok b ∧ decStr b = t.filter (fun c => c ≠ 0) ∧
      ((∀ c ∈ t, c ≠ 0) → decStr b = t) ∧ ((∃ c ∈ t, c = 0) → decStr b ≠ t)

/-! ### Hex unit -/

/-- 42_hex R122: the text written; FB and RC stay. -/
def Obligations.B2hWritesHexText : Prop :=
  ∀ (ta : TReg) (s : State), ∃ h, HexOf s.fb h ∧ exec (.b2h ta) s = .next (s.setT ta h)

/-- 42_hex R123: the tests in order, the first `n` bits the text spells, and the cursor at 0; the rest of the text is
not examined beyond its being hex. -/
def Obligations.H2bLoadsBuffer : Prop :=
  ∀ (ta : TReg) (n : Nat) (s : State),
    (¬ HexText (s.getT ta) → FailsWith (.h2b ta n) s 0x21 4 2) ∧
    (HexText (s.getT ta) → s.cfg.fbcap < n ∨ 4 * (s.getT ta).length < n → FailsWith (.h2b ta n) s 0x21 1 2) ∧
    (HexText (s.getT ta) → n ≤ s.cfg.fbcap → n ≤ 4 * (s.getT ta).length →
      ∃ x : Bits, x.length = n ∧ Spells (s.getT ta) x ∧ exec (.h2b ta n) s = .next { s with fb := x, rc := 0 })

/-- 42_hex R124: bits to text and back; a text of `ceil(n / 4)` digits to `n` bits and back where the dropped bits are
zero, and only there. -/
def Obligations.HexRoundTrips : Prop :=
  (∀ b : Bits, hexToBin (binToHex b) b.length = .ok b) ∧
  (∀ (h : Text) (n : Nat), HexText h → h.length = (n + 3) / 4 → (∀ x ∈ (hexExpand h).drop n, x = false) →
    ∃ b, hexToBin h n = .ok b ∧ binToHex b = h) ∧
  (∀ (h : Text) (n : Nat), HexText h → h.length = (n + 3) / 4 → (∃ x ∈ (hexExpand h).drop n, x = true) →
    ∃ b, hexToBin h n = .ok b ∧ binToHex b ≠ h)

/-! ### Partition unit -/

/-- 43_partition R134: for a length 6 to 12 exactly one entry has that prefix width, the one of index 12 less the length;
for another length none has. -/
def Obligations.PartitionSelection : Prop :=
  ∀ (c : Config) (fam : Family) (L : Nat), c.wf = true →
    (6 ≤ L → L ≤ 12 → ∃ e ∈ table c fam, PT c fam (12 - L) = some e ∧ e.d1 = L ∧ ∀ e' ∈ table c fam, e'.d1 = L → e' = e) ∧
    (L < 6 ∨ 12 < L → ∀ e ∈ table c fam, e.d1 ≠ L)

/-- 43_partition R137: the tests in order, and the appended segment of 47 or 61 bits. -/
def Obligations.EncpAppendsSegment : Prop :=
  ∀ (fam : Family) (ta tb : TReg) (s : State), s.cfg.wf = true →
    ((s.getT ta).length < 6 ∨ 12 < (s.getT ta).length → FailsWith (.encp fam ta tb) s 0x28 3 1) ∧
    (6 ≤ (s.getT ta).length → (s.getT ta).length ≤ 12 → ¬ Numeral (s.getT ta) ∨ ¬ Numeral (s.getT tb) →
      FailsWith (.encp fam ta tb) s 0x28 5 1) ∧
    (6 ≤ (s.getT ta).length → (s.getT ta).length ≤ 12 → Numeral (s.getT ta) → Numeral (s.getT tb) →
      ∃ e ∈ table s.cfg fam, e.p = 12 - (s.getT ta).length ∧
        (2 ^ e.b1 ≤ intValue (s.getT ta) ∨ 2 ^ e.b2 ≤ intValue (s.getT tb) → FailsWith (.encp fam ta tb) s 0x28 1 1) ∧
        (intValue (s.getT ta) < 2 ^ e.b1 → intValue (s.getT tb) < 2 ^ e.b2 →
          (s.cfg.fbcap < s.fb.length + (if fam = .sgtin then 47 else 61) → FailsWith (.encp fam ta tb) s 0x28 6 1) ∧
          (s.fb.length + (if fam = .sgtin then 47 else 61) ≤ s.cfg.fbcap →
            ∃ x : Bits, x.length = (if fam = .sgtin then 47 else 61) ∧ field x 0 3 = e.p ∧
              field x 3 e.b1 = intValue (s.getT ta) ∧ field x (3 + e.b1) e.b2 = intValue (s.getT tb) ∧
              exec (.encp fam ta tb) s = .next { s with fb := s.fb ++ x })))

/-- 43_partition R138: the tests in order, the two zero-padded fields, and the cursor 47 or 61 bits on. (A word with
`ta = tb` is illegal, LegalWordsAreTheOpcodeMap.) -/
def Obligations.DecpReadsSegment : Prop :=
  ∀ (fam : Family) (ta tb : TReg) (s : State), s.cfg.wf = true → ta ≠ tb →
    SegmentReads (.decp fam ta tb) s 0x29 fam s.fb s.rc (s.fb.length - s.rc) fun _ cp comp =>
      exec (.decp fam ta tb) s =
        .next { (s.setT ta cp).setT tb comp with rc := s.rc + (if fam = .sgtin then 47 else 61) }

/-- 43_partition R139: with the default tables `encPart` succeeds on full-width fields; with any configured tables,
where it succeeds, `decPart` gives the two fields back. -/
def Obligations.PartitionRoundTrip : Prop :=
  ∀ (c : Config) (fam : Family) (f1 f2 : Text), c.wf = true → 6 ≤ f1.length → f1.length ≤ 12 → isDigits f1 = true →
    isDigits f2 = true → f2.length = (if fam = .sgtin then 13 else 17) - f1.length →
      (c = Config.default → ∃ b, encPart c fam f1 f2 = .ok b) ∧
      (∀ b, encPart c fam f1 f2 = .ok b →
        b.length = (if fam = .sgtin then 47 else 61) ∧ decPart c fam b = .ok (f1, f2))

/-! ### Check-digit unit -/

/-- 44_checkdigit R151: the test, and the digit that makes the sum with weights 3, 1, 3, ... from the right a multiple of
ten. -/
def Obligations.ChkWritesCheckDigit : Prop :=
  ∀ (ta tb : TReg) (s : State),
    (isDigits (s.getT ta) = false → FailsWith (.chk ta tb) s 0x30 1 3) ∧
    (isDigits (s.getT ta) = true → ∃ d < 10,
      (((List.range (s.getT ta).length).map fun j =>
        digitVal ((s.getT ta).reverse.getD j 48) * (if j % 2 = 0 then 3 else 1)).sum + d) % 10 = 0 ∧
      exec (.chk ta tb) s = .next (s.setT tb [BitVec.ofNat 7 (48 + d)]))

/-- 44_checkdigit R154: leading zeros do not change the check digit, and a string with its check digit appended has a sum,
with weights 1, 3, 1, ... from the right, that is a multiple of ten. -/
def Obligations.CheckDigitLaws : Prop :=
  (∀ (k : Nat) (ds : Text), isDigits ds = true → chk (List.replicate k 48 ++ ds) = chk ds) ∧
  (∀ ds : Text, isDigits ds = true → weighted false (digitsFromRight (ds ++ [chk ds])) % 10 = 0)

/-- 44_checkdigit R152, R153 with 45_frames R170, R171: taking a composed GTIN-14 or SSCC-18 apart gives the fields back;
the keys have 14 and 18 digits. -/
def Obligations.KeysComposeAndSplit : Prop :=
  ∀ cp comp : Text, 6 ≤ cp.length → cp.length ≤ 12 → isDigits cp = true → isDigits comp = true →
    (comp.length = 13 - cp.length →
      (gtin14 cp comp).length = 14 ∧ fromGTIN (gtin14 cp comp) cp.length = some (cp, comp)) ∧
    (comp.length = 17 - cp.length →
      (sscc18 cp comp).length = 18 ∧ fromSSCC (sscc18 cp comp) cp.length = some (cp, comp))

/-! ### Frame sequencer -/

/-- 45_frames R162: the tests in order; the 96-bit frame in FB, its hex text in T3, the cursor at 0. -/
def Obligations.Esg96BuildsFrame : Prop :=
  ∀ (flt : BitVec 3) (s : State), s.cfg.wf = true →
    (¬ ValidSerial96 s.t2 → FailsWith (.esg96 flt) s 0x40 4 1) ∧
    (ValidSerial96 s.t2 → SegmentChecks (.esg96 flt) s 0x40 .sgtin 13 fun e =>
      ∃ x h, x.length = 96 ∧ FrameStart x 0x30 flt e (intValue s.t0) (intValue s.t1) ∧
        field x 58 38 = intValue s.t2 ∧ HexOf x h ∧ exec (.esg96 flt) s = .next { s with fb := x, rc := 0, t3 := h })

/-- 45_frames R163: the tests in order; the 198-bit frame in FB, its hex text in T3, the cursor at 0. -/
def Obligations.Esg198BuildsFrame : Prop :=
  ∀ (flt : BitVec 3) (s : State), s.cfg.wf = true →
    SegmentChecks (.esg198 flt) s 0x41 .sgtin 13 fun e =>
      (20 < s.t2.length → FailsWith (.esg198 flt) s 0x41 2 1) ∧
      (s.t2.length ≤ 20 → ∃ x h, x.length = 198 ∧ FrameStart x 0x36 flt e (intValue s.t0) (intValue s.t1) ∧
        Holds x 58 s.t2 ∧ HexOf x h ∧ exec (.esg198 flt) s = .next { s with fb := x, rc := 0, t3 := h })

/-- 45_frames R165: the numeric test of the companion field first, then the others in order; the 96-bit frame with 24
zero bits at its end. -/
def Obligations.Ess96BuildsFrame : Prop :=
  ∀ (flt : BitVec 3) (s : State), s.cfg.wf = true →
    (¬ Numeral s.t1 → FailsWith (.ess96 flt) s 0x42 5 1) ∧
    (Numeral s.t1 → SegmentChecks (.ess96 flt) s 0x42 .sscc 17 fun e =>
      ∃ x h, x.length = 96 ∧ FrameStart x 0x31 flt e (intValue s.t0) (intValue s.t1) ∧
        field x 72 24 = 0 ∧ HexOf x h ∧ exec (.ess96 flt) s = .next { s with fb := x, rc := 0, t3 := h })

/-- 45_frames R167: the tests in order; FB, RC, T0, T1, T2, FLT and HDR of the decoded frame, for both headers. -/
def Obligations.DsgDecodesFrame : Prop :=
  ∀ (s : State), s.cfg.wf = true →
    (s.t3.take 2 ≠ ascii "30" → s.t3.take 2 ≠ ascii "36" → FailsWith .dsg s 0x48 2 2) ∧
    ∀ N header, (s.t3.take 2 = ascii "30" ∧ N = 96 ∧ header = 0x30) ∨ (s.t3.take 2 = ascii "36" ∧ N = 198 ∧ header = 0x36) →
      (¬ HexText s.t3 → FailsWith .dsg s 0x48 4 2) ∧
      (HexText s.t3 → 4 * s.t3.length < N → FailsWith .dsg s 0x48 1 2) ∧
      (HexText s.t3 → N ≤ 4 * s.t3.length → ∃ x : Bits, x.length = N ∧ Spells s.t3 x ∧
        SegmentReads .dsg s 0x48 .sgtin x 11 47 fun _ cp comp =>
          ∃ (ser : Text) (flt : BitVec 3), flt.toNat = field x 8 3 ∧
            (N = 96 → Shortest (field x 58 38) ser) ∧ (N = 198 → ser = characters x 58 20) ∧
            exec .dsg s = .next { s with fb := x, rc := N, t0 := cp, t1 := comp, t2 := ser, flt := flt, hdr := header })

/-- 45_frames R168: the tests in order; FB, RC = 72, T0, T1, FLT and HDR of the decoded frame. -/
def Obligations.DssDecodesFrame : Prop :=
  ∀ (s : State), s.cfg.wf = true →
    (s.t3.take 2 ≠ ascii "31" → FailsWith .dss s 0x49 2 2) ∧
    (s.t3.take 2 = ascii "31" → ¬ HexText s.t3 → FailsWith .dss s 0x49 4 2) ∧
    (s.t3.take 2 = ascii "31" → HexText s.t3 → 4 * s.t3.length < 96 → FailsWith .dss s 0x49 1 2) ∧
    (s.t3.take 2 = ascii "31" → HexText s.t3 → 96 ≤ 4 * s.t3.length → ∃ x : Bits, x.length = 96 ∧ Spells s.t3 x ∧
      SegmentReads .dss s 0x49 .sscc x 11 61 fun _ cp comp =>
        ∃ flt : BitVec 3, flt.toNat = field x 8 3 ∧
          exec .dss s = .next { s with fb := x, rc := 72, t0 := cp, t1 := comp, flt := flt, hdr := 0x31 })

/-- 45_frames R168 "any value there decodes alike": two SSCC texts that agree on the first 18 characters decode to the
same T0, T1, FLT and HDR. -/
def Obligations.SsccReservedBitsIgnored : Prop :=
  ∀ (s : State) (h : Text) (t t' : State), HexText s.t3 → HexText h → 24 ≤ s.t3.length → 24 ≤ h.length →
    s.t3.take 18 = h.take 18 → exec .dss s = .next t → exec .dss { s with t3 := h } = .next t' →
    t'.t0 = t.t0 ∧ t'.t1 = t.t1 ∧ t'.flt = t.flt ∧ t'.hdr = t.hdr ∧ t'.rc = t.rc ∧ t'.st = t.st

/-- 45_frames R172 for sgtin-96: a following DSG gives the operands, the filter and the header back. -/
def Obligations.Sgtin96RoundTrip : Prop :=
  ∀ (flt : BitVec 3) (s t : State), s.cfg.wf = true → exec (.esg96 flt) s = .next t → stErr t.st = 0 →
    t.t3.length = 24 ∧ ∃ u, exec .dsg t = .next u ∧ stErr u.st = 0 ∧ u.t0 = s.t0 ∧ u.t1 = s.t1 ∧ u.t2 = s.t2 ∧
      u.flt = flt ∧ u.hdr = 0x30

/-- 45_frames R172 for sgtin-198, for a serial with no character of code 0. -/
def Obligations.Sgtin198RoundTrip : Prop :=
  ∀ (flt : BitVec 3) (s t : State), s.cfg.wf = true → exec (.esg198 flt) s = .next t → stErr t.st = 0 →
    t.t3.length = 50 ∧ ((∀ c ∈ s.t2, c ≠ 0) → ∃ u, exec .dsg t = .next u ∧ stErr u.st = 0 ∧ u.t0 = s.t0 ∧ u.t1 = s.t1 ∧
      u.t2 = s.t2 ∧ u.flt = flt ∧ u.hdr = 0x36)

/-- 45_frames R172 for sscc-96. -/
def Obligations.Sscc96RoundTrip : Prop :=
  ∀ (flt : BitVec 3) (s t : State), s.cfg.wf = true → exec (.ess96 flt) s = .next t → stErr t.st = 0 →
    t.t3.length = 24 ∧ ∃ u, exec .dss t = .next u ∧ stErr u.st = 0 ∧ u.t0 = s.t0 ∧ u.t1 = s.t1 ∧ u.t2 = s.t2 ∧
      u.flt = flt ∧ u.hdr = 0x31

/-- 95_test_vectors P1: where a composite encode succeeds, the primitive commands that build its frame leave the very
same state. -/
def Obligations.CompositeEncodesEqualPrimitives : Prop :=
  ∀ (flt : BitVec 3) (s t : State), s.cfg.wf = true → ∀ i ∈ [Instr.esg96 flt, .esg198 flt, .ess96 flt],
    exec i s = .next t → stErr t.st = 0 → runAll (primitives i) s = .next t

/-- 95_test_vectors S1 to S4: the source's own frames. -/
def Obligations.SourceVectors : Prop :=
  (∃ t, exec (.esg96 1) (loaded "0614141" "812345" "6789" "") = .next t ∧ t.t3 = ascii "3034257BF7194E4000001A85") ∧
  (∃ t, exec (.esg198 1) (loaded "0614141" "812345" "6789" "") = .next t ∧
    t.t3 = ascii "3634257BF7194E5B3770E40000000000000000000000000000") ∧
  (∃ t, exec (.esg198 1) (loaded "0614141" "812345" "6789AB" "") = .next t ∧
    t.t3 = ascii "3634257BF7194E5B3770E60C20000000000000000000000000") ∧
  (∃ t, exec (.ess96 0) (loaded "0614141" "1234567890" "" "") = .next t ∧ t.t3 = ascii "3114257BF4499602D2000000")

/-! ### The port -/

/-- 70_reset_and_hazards R236: what the outputs that are no register carry, in a state that meets the invariant; `t_rlen` for
a text of fewer than 64 characters, since its 6 bits spell no more (log entry 21). That the outputs are functions of
State is log entry 9. -/
def Obligations.PortOutputs : Prop :=
  ∀ s : State, s.Inv →
    (s.portErr = true ↔ stErr s.st ≠ 0) ∧ s.portFbLen.toNat = s.fb.length ∧ s.portRc.toNat = s.rc ∧
    s.portFbData.length = s.cfg.fbcap ∧ (∀ k < s.fb.length, s.portFbData[k]? = s.fb[k]?) ∧
    (∀ k, s.fb.length ≤ k → k < s.cfg.fbcap → s.portFbData[k]? = some false) ∧
    (∀ i, ((s.getT i).length < 64 → (s.portTLen i).toNat = (s.getT i).length) ∧ (s.portTData i).length = s.cfg.txcap ∧ (∀ k < (s.getT i).length, (s.portTData i)[k]? = (s.getT i)[k]?) ∧
      ∀ k, (s.getT i).length ≤ k → k < s.cfg.txcap → (s.portTData i)[k]? = some 0)

/-- 70_reset_and_hazards R236, the inputs of a text load: a `t_wlen` above TXCAP is outside the model, which refuses it (log
entry 6); else the load is HostLoadT of the characters presented up to `t_wlen`: written where the block is not frozen,
ignored where it is. The port as a function is log entry 9. -/
def Obligations.PortTextLoad : Prop :=
  ∀ (i : TReg) (wlen : BitVec 6) (wdata : Text) (s : State), wdata.length = s.cfg.txcap →
    (s.cfg.txcap < wlen.toNat → portLoad i wlen wdata s = .refused .hostTextTooLong) ∧
    (wlen.toNat ≤ s.cfg.txcap →
      portLoad i wlen wdata s = .next (if stErr s.st = 0 then s.setT i (wdata.take wlen.toNat) else s) ∧
      (wdata.take wlen.toNat).length = wlen.toNat)
end

