-- ==== Sys2Proof/Laws/Operands.lean ====
section
/-! SUPPORT. The small lemmas of the pure functions on bit strings and digit strings (00_scope R6 to R12). -/

namespace Sys2Proof.Machine

/-! ### Slices -/

@[simp] theorem zeros_length (n : Nat) : (zeros n).length = n := by simp [zeros]

theorem slice_length {b : Bits} {a n : Nat} (h : a + n ≤ b.length) : (slice b a n).length = n := by
  simp only [slice, List.length_take, List.length_drop]; omega

theorem slice_zero_length (b : Bits) : slice b 0 b.length = b := by simp [slice]

/-- A slice that starts in the second part of a concatenation. -/
theorem slice_append_right {x y : Bits} {a n : Nat} (h : x.length ≤ a) :
    slice (x ++ y) a n = slice y (a - x.length) n := by
  simp [slice, List.drop_append, List.drop_eq_nil_of_le h]

/-- A slice that ends in the first part of a concatenation. -/
theorem slice_append_left {x y : Bits} {a n : Nat} (h : a + n ≤ x.length) :
    slice (x ++ y) a n = slice x a n := by
  simp only [slice]
  rw [List.drop_append_of_le_length (by omega), List.take_append_of_le_length (by simp; omega)]

/-- The slice that is exactly the first part. -/
theorem slice_append_first {x y : Bits} {n : Nat} (h : n = x.length) : slice (x ++ y) 0 n = x := by
  rw [slice_append_left (by omega), h, slice_zero_length]

/-- A slice of a slice. -/
theorem slice_slice (b : Bits) {a n c m : Nat} (h : c + m ≤ n) : slice (slice b a n) c m = slice b (a + c) m := by
  simp only [slice, List.drop_take, List.take_take, List.drop_drop]
  congr 1
  omega

/-- Two adjacent slices (20_memory R42). -/
theorem slice_add (b : Bits) (a m n : Nat) : slice b a (m + n) = slice b a m ++ slice b (a + m) n := by
  simp [slice, List.take_add, List.drop_drop]

/-! ### uint and bitsOf -/

@[simp] theorem uint_nil : uint [] = 0 := rfl

theorem uint_foldl (b : Bits) (v : Nat) :
    b.foldl (fun v x => 2 * v + x.toNat) v = v * 2 ^ b.length + uint b := by
  induction b generalizing v with
  | nil => simp
  | cons x xs ih =>
    simp only [List.foldl_cons, List.length_cons, uint]
    rw [ih, ih (2 * 0 + x.toNat), pow_succ]; ring

theorem uint_append (a b : Bits) : uint (a ++ b) = uint a * 2 ^ b.length + uint b := by
  rw [uint, List.foldl_append, uint_foldl]; rfl

theorem uint_cons (x : Bool) (b : Bits) : uint (x :: b) = x.toNat * 2 ^ b.length + uint b := by
  rw [uint, List.foldl_cons, uint_foldl]; simp

theorem uint_lt (b : Bits) : uint b < 2 ^ b.length := by
  induction b with
  | nil => simp
  | cons x xs ih =>
    rw [uint_cons, List.length_cons, pow_succ]
    cases x <;> (simp; omega)

@[simp] theorem bitsOf_length (v n : Nat) : (bitsOf v n).length = n := by
  induction n with
  | zero => rfl
  | succ n ih => simp [bitsOf, ih]

theorem uint_bitsOf (v n : Nat) : uint (bitsOf v n) = v % 2 ^ n := by
  induction n with
  | zero => simp [bitsOf, Nat.mod_one]
  | succ n ih =>
    rw [bitsOf, uint_cons, ih, bitsOf_length, Nat.pow_succ, Nat.mod_mul]
    rcases Nat.mod_two_eq_zero_or_one (v / 2 ^ n) with h | h <;> simp [h] <;> ring

theorem uint_bitsOf_of_lt {v n : Nat} (h : v < 2 ^ n) : uint (bitsOf v n) = v := by
  rw [uint_bitsOf, Nat.mod_eq_of_lt h]

/-- A bit string is determined by its length and its value. -/
theorem bits_ext {a b : Bits} (hl : a.length = b.length) (hv : uint a = uint b) : a = b := by
  induction a generalizing b with
  | nil => exact (List.length_eq_zero_iff.mp hl.symm).symm
  | cons x xs ih =>
    obtain _ | ⟨y, ys⟩ := b
    · simp at hl
    · have hl' : xs.length = ys.length := by simpa using hl
      rw [uint_cons, uint_cons, hl'] at hv
      have h1 := uint_lt xs
      have h2 := uint_lt ys
      rw [hl'] at h1
      cases x <;> cases y <;> simp at hv
      · rw [ih hl' hv]
      · omega
      · omega
      · rw [ih hl' hv]

theorem bitsOf_uint (b : Bits) : bitsOf (uint b) b.length = b :=
  bits_ext (by simp) (uint_bitsOf_of_lt (uint_lt b))

theorem uint_zeros (n : Nat) : uint (zeros n) = 0 := by
  induction n with
  | zero => rfl
  | succ n ih => simp only [zeros, List.replicate_succ] at *; rw [uint_cons, ih]; simp

theorem bitsOf_zero (n : Nat) : bitsOf 0 n = zeros n :=
  bits_ext (by simp) (by simp [uint_bitsOf, uint_zeros])

/-- Bit `i` of `bitsOf v n`, counted from the first (40_integer R100). -/
theorem bitsOf_getElem? (v n i : Nat) (h : i < n) : (bitsOf v n)[i]? = some (v.testBit (n - 1 - i)) := by
  induction n generalizing i with
  | zero => omega
  | succ n ih =>
    cases i with
    | zero => simp [bitsOf, Nat.testBit, Nat.shiftRight_eq_div_pow]
    | succ i =>
      simp only [bitsOf, List.getElem?_cons_succ]
      rw [ih i (by omega)]
      congr 2
      omega

/-! ### Digits -/

theorem digitChar_toNat {d : Nat} (h : d < 10) : (digitChar d).toNat = 48 + d := by
  simp only [digitChar, BitVec.toNat_ofNat]; omega

theorem isDigit_digitChar {d : Nat} (h : d < 10) : isDigit (digitChar d) = true := by
  simp only [isDigit, digitChar_toNat h, decide_eq_true_eq]; omega

theorem digitVal_digitChar {d : Nat} (h : d < 10) : digitVal (digitChar d) = d := by
  simp only [digitVal, digitChar_toNat h]; omega

theorem digitVal_lt {c : Char7} (h : isDigit c = true) : digitVal c < 10 := by
  simp only [isDigit, decide_eq_true_eq] at h; simp only [digitVal]; omega

theorem digitChar_digitVal {c : Char7} (h : isDigit c = true) : digitChar (digitVal c) = c := by
  apply BitVec.eq_of_toNat_eq
  rw [digitChar_toNat (digitVal_lt h)]
  simp only [isDigit, decide_eq_true_eq] at h; simp only [digitVal]; omega

theorem isDigits_append (a b : Text) : isDigits (a ++ b) = (isDigits a && isDigits b) := by simp [isDigits]

theorem isDigits_cons (c : Char7) (s : Text) : isDigits (c :: s) = (isDigit c && isDigits s) := by simp [isDigits]

@[simp] theorem isDigits_nil : isDigits [] = true := rfl

@[simp] theorem intValue_nil : intValue [] = 0 := rfl

theorem intValue_foldl (ds : Text) (v : Nat) :
    ds.foldl (fun v c => 10 * v + digitVal c) v = v * 10 ^ ds.length + intValue ds := by
  induction ds generalizing v with
  | nil => simp
  | cons x xs ih =>
    simp only [List.foldl_cons, List.length_cons, intValue]
    rw [ih, ih (10 * 0 + digitVal x), pow_succ]; ring

theorem intValue_append (a b : Text) : intValue (a ++ b) = intValue a * 10 ^ b.length + intValue b := by
  rw [intValue, List.foldl_append, intValue_foldl]; rfl

theorem intValue_cons (c : Char7) (s : Text) : intValue (c :: s) = digitVal c * 10 ^ s.length + intValue s := by
  rw [intValue, List.foldl_cons, intValue_foldl]; simp

theorem intValue_lt {ds : Text} (h : isDigits ds = true) : intValue ds < 10 ^ ds.length := by
  induction ds with
  | nil => simp
  | cons c cs ih =>
    rw [isDigits_cons, Bool.and_eq_true] at h
    have h1 := digitVal_lt h.1
    have h2 := ih h.2
    rw [intValue_cons, List.length_cons, pow_succ]
    have : digitVal c * 10 ^ cs.length ≤ 9 * 10 ^ cs.length := Nat.mul_le_mul_right _ (by omega)
    omega

/-- A digit string is determined by its length and its value. -/
theorem digits_ext {a b : Text} (ha : isDigits a = true) (hb : isDigits b = true) (hl : a.length = b.length)
    (hv : intValue a = intValue b) : a = b := by
  induction a generalizing b with
  | nil => exact (List.length_eq_zero_iff.mp hl.symm).symm
  | cons x xs ih =>
    obtain _ | ⟨y, ys⟩ := b
    · simp at hl
    · have hl' : xs.length = ys.length := by simpa using hl
      rw [isDigits_cons, Bool.and_eq_true] at ha hb
      rw [intValue_cons, intValue_cons, hl'] at hv
      have h1 := intValue_lt ha.2
      have h2 := intValue_lt hb.2
      rw [hl'] at h1
      have hd : digitVal x = digitVal y := by
        have e1 := congrArg (· / 10 ^ ys.length) hv
        simp only [Nat.mul_comm _ (10 ^ ys.length), Nat.mul_add_div (Nat.pow_pos (show 0 < 10 by omega)),
          Nat.div_eq_of_lt h1, Nat.div_eq_of_lt h2] at e1
        simpa using e1
      have hx : x = y := by rw [← digitChar_digitVal ha.1, hd, digitChar_digitVal hb.1]
      rw [hd] at hv
      rw [hx, ih ha.2 hb.2 hl' (by omega)]

/-! ### dec and zpad -/

/-- The most digits `decDigits` writes, and that they spell `v`. -/
theorem decDigits_spec {fuel v : Nat} (h : v < 10 ^ fuel) (hf : 0 < fuel) :
    isDigits (decDigits fuel v) = true ∧ intValue (decDigits fuel v) = v ∧ decDigits fuel v ≠ [] := by
  induction fuel generalizing v with
  | zero => omega
  | succ f ih =>
    simp only [decDigits]
    split
    · rename_i hv
      refine ⟨?_, ?_, by simp⟩
      · simp [isDigits, isDigit_digitChar hv]
      · simp [intValue, digitVal_digitChar hv]
    · rename_i hv
      have hm : v % 10 < 10 := Nat.mod_lt _ (by omega)
      have hf' : 0 < f := by
        rcases Nat.eq_zero_or_pos f with rfl | h'
        · simp at h; omega
        · exact h'
      have hq : v / 10 < 10 ^ f := by rw [Nat.div_lt_iff_lt_mul (by omega), ← pow_succ]; exact h
      obtain ⟨h1, h2, h3⟩ := ih hq hf'
      refine ⟨?_, ?_, by simp⟩
      · rw [isDigits_append, h1]; simp [isDigits, isDigit_digitChar hm]
      · rw [intValue_append, h2]; simp [intValue, digitVal_digitChar hm]; omega

/-- `decDigits` writes no more than `d` digits exactly when `v < 10 ^ d`. -/
theorem decDigits_length_le {fuel v d : Nat} (h : v < 10 ^ fuel) (hd : 0 < d) :
    (decDigits fuel v).length ≤ d ↔ v < 10 ^ d := by
  induction fuel generalizing v d with
  | zero =>
    have : v = 0 := by simpa using h
    subst this
    simp [decDigits]
  | succ f ih =>
    simp only [decDigits]
    split
    · rename_i hv
      have : v < 10 ^ d := lt_of_lt_of_le hv (by simpa using Nat.pow_le_pow_right (show 0 < 10 by omega) hd)
      simp [this]; omega
    · rename_i hv
      have hq : v / 10 < 10 ^ f := by rw [Nat.div_lt_iff_lt_mul (by omega), ← pow_succ]; exact h
      rcases Nat.lt_or_ge 1 d with h1 | h1
      · have := ih hq (show 0 < d - 1 by omega)
        rw [List.length_append, List.length_singleton]
        constructor
        · intro hl
          have h2 := this.mp (by omega)
          rw [Nat.div_lt_iff_lt_mul (by omega), ← pow_succ] at h2
          rwa [show d - 1 + 1 = d by omega] at h2
        · intro hl
          have h2 := this.mpr (by
            rw [Nat.div_lt_iff_lt_mul (by omega), ← pow_succ, show d - 1 + 1 = d by omega]; exact hl)
          omega
      · have hd1 : d = 1 := by omega
        subst hd1
        have hf' : 0 < f := by
          rcases Nat.eq_zero_or_pos f with rfl | h'
          · simp at h; omega
          · exact h'
        have h3 := (decDigits_spec hq hf').2.2
        have h4 : 0 < (decDigits f (v / 10)).length := List.length_pos_iff.mpr h3
        simp only [List.length_append, List.length_singleton]
        constructor <;> intro hh <;> omega

theorem lt_ten_pow_succ (v : Nat) : v < 10 ^ (v + 1) := by
  exact lt_of_lt_of_le (Nat.lt_succ_self v) (Nat.lt_pow_self (by omega)).le

theorem isDigits_dec (v : Nat) : isDigits (dec v) = true := (decDigits_spec (lt_ten_pow_succ v) (by omega)).1

theorem intValue_dec (v : Nat) : intValue (dec v) = v := (decDigits_spec (lt_ten_pow_succ v) (by omega)).2.1

theorem dec_ne_nil (v : Nat) : dec v ≠ [] := (decDigits_spec (lt_ten_pow_succ v) (by omega)).2.2

/-- `dec(v)` fits in `d` digits exactly when `v < 10^d`. -/
theorem dec_length_le {v d : Nat} (hd : 0 < d) : (dec v).length ≤ d ↔ v < 10 ^ d :=
  decDigits_length_le (lt_ten_pow_succ v) hd

/-- `dec(v)` is the shortest digit string that spells `v` (R11). -/
theorem dec_shortest {ds : Text} (h : isDigits ds = true) (hne : ds ≠ []) : (dec (intValue ds)).length ≤ ds.length :=
  (dec_length_le (List.length_pos_iff.mpr hne)).mpr (intValue_lt h)

/-- `dec(v)` has no leading zero unless it is `"0"` (R11). -/
theorem dec_head (v : Nat) : (dec v).head? ≠ some (digitChar 0) ∨ (dec v).length = 1 := by
  rcases hd : dec v with _ | ⟨c, cs⟩
  · exact absurd hd (dec_ne_nil v)
  · by_cases hc : c = digitChar 0
    · right
      rcases cs.eq_nil_or_concat with rfl | hcs
      · rfl
      · have hne : cs ≠ [] := by rcases hcs with ⟨l, a, rfl⟩; simp
        have h1 := isDigits_dec v
        have h2 := intValue_dec v
        rw [hd, isDigits_cons, Bool.and_eq_true] at h1
        rw [hd, intValue_cons, hc, digitVal_digitChar (by omega)] at h2
        have h3 := dec_shortest h1.2 hne
        rw [show intValue cs = v by omega, hd] at h3
        simp at h3
    · left; simpa using hc

/-- A digit string with no superfluous leading zero is the `dec` of its value. -/
theorem dec_intValue {ds : Text} (h : isDigits ds = true) (hne : ds ≠ [])
    (hz : ds.head? ≠ some (digitChar 0) ∨ ds.length = 1) : dec (intValue ds) = ds := by
  refine digits_ext (isDigits_dec _) h ?_ (intValue_dec _)
  have hle := dec_shortest h hne
  refine le_antisymm hle ?_
  by_contra hlt
  rw [not_le] at hlt
  obtain ⟨c, cs, rfl⟩ := List.exists_cons_of_ne_nil hne
  rcases hz with hz | hz
  · have hpos : 0 < (dec (intValue (c :: cs))).length := List.length_pos_iff.mpr (dec_ne_nil _)
    rw [isDigits_cons, Bool.and_eq_true] at h
    have hcl : 0 < cs.length := by simp at hlt; omega
    have hv := (dec_length_le hcl).mp (by simp at hlt; omega)
    rw [intValue_cons] at hv
    have hd0 : digitVal c = 0 := by
      by_contra hne0
      have : 10 ^ cs.length ≤ digitVal c * 10 ^ cs.length := Nat.le_mul_of_pos_left _ (by omega)
      omega
    apply hz
    rw [List.head?_cons, ← digitChar_digitVal h.1, hd0]
  · have := List.length_pos_iff.mpr (dec_ne_nil (intValue (c :: cs)))
    omega

theorem zpad_length {ds : Text} {w : Nat} (h : ds.length ≤ w) : (zpad ds w).length = w := by
  simp [zpad]; omega

theorem isDigits_replicate_zero (n : Nat) : isDigits (List.replicate n (digitChar 0)) = true := by
  simp [isDigits, isDigit_digitChar]

theorem intValue_replicate_zero (n : Nat) : intValue (List.replicate n (digitChar 0)) = 0 := by
  induction n with
  | zero => rfl
  | succ n ih => rw [List.replicate_succ, intValue_cons, ih, digitVal_digitChar (by omega)]; simp

theorem isDigits_zpad {ds : Text} (h : isDigits ds = true) (w : Nat) : isDigits (zpad ds w) = true := by
  rw [zpad, isDigits_append, h, isDigits_replicate_zero]; rfl

theorem intValue_zpad (ds : Text) (w : Nat) : intValue (zpad ds w) = intValue ds := by
  rw [zpad, intValue_append, intValue_replicate_zero]; simp

/-- Padding the decimal of a digit string's value to its length gives the digit string back. -/
theorem zpad_dec_intValue {ds : Text} (h : isDigits ds = true) (hne : ds ≠ []) :
    zpad (dec (intValue ds)) ds.length = ds :=
  digits_ext (isDigits_zpad (isDigits_dec _) _) h (zpad_length (dec_shortest h hne))
    (by rw [intValue_zpad, intValue_dec])

end Sys2Proof.Machine
end

