-- ==== Sys2Proof/Laws/State.lean ====
section
/-! SUPPORT. One lemma per field of State per named update, true by computation, so that no later proof unfolds a
record update. -/

namespace Sys2Proof.Machine

variable (s : State)

@[simp] theorem State.memAppend_cfg (v : Bits) : (s.memAppend v).cfg = s.cfg := rfl
@[simp] theorem State.memAppend_fb (v : Bits) : (s.memAppend v).fb = s.fb ++ v := rfl
@[simp] theorem State.memAppend_rc (v : Bits) : (s.memAppend v).rc = s.rc := rfl
@[simp] theorem State.memAppend_t0 (v : Bits) : (s.memAppend v).t0 = s.t0 := rfl
@[simp] theorem State.memAppend_t1 (v : Bits) : (s.memAppend v).t1 = s.t1 := rfl
@[simp] theorem State.memAppend_t2 (v : Bits) : (s.memAppend v).t2 = s.t2 := rfl
@[simp] theorem State.memAppend_t3 (v : Bits) : (s.memAppend v).t3 = s.t3 := rfl
@[simp] theorem State.memAppend_flt (v : Bits) : (s.memAppend v).flt = s.flt := rfl
@[simp] theorem State.memAppend_hdr (v : Bits) : (s.memAppend v).hdr = s.hdr := rfl
@[simp] theorem State.memAppend_st (v : Bits) : (s.memAppend v).st = s.st := rfl
@[simp] theorem State.memAppend_pending (v : Bits) : (s.memAppend v).pending = s.pending := rfl
@[simp] theorem State.memAppend_reply (v : Bits) : (s.memAppend v).reply = s.reply := rfl
@[simp] theorem State.memAppend_getT (v : Bits) (i : TReg) : (s.memAppend v).getT i = s.getT i := by cases i <;> rfl

@[simp] theorem State.loadFrame_cfg (x : Bits) (r : Nat) : (s.loadFrame x r).cfg = s.cfg := rfl
@[simp] theorem State.loadFrame_fb (x : Bits) (r : Nat) : (s.loadFrame x r).fb = x := rfl
@[simp] theorem State.loadFrame_rc (x : Bits) (r : Nat) : (s.loadFrame x r).rc = r := rfl
@[simp] theorem State.loadFrame_t0 (x : Bits) (r : Nat) : (s.loadFrame x r).t0 = s.t0 := rfl
@[simp] theorem State.loadFrame_t1 (x : Bits) (r : Nat) : (s.loadFrame x r).t1 = s.t1 := rfl
@[simp] theorem State.loadFrame_t2 (x : Bits) (r : Nat) : (s.loadFrame x r).t2 = s.t2 := rfl
@[simp] theorem State.loadFrame_t3 (x : Bits) (r : Nat) : (s.loadFrame x r).t3 = s.t3 := rfl
@[simp] theorem State.loadFrame_flt (x : Bits) (r : Nat) : (s.loadFrame x r).flt = s.flt := rfl
@[simp] theorem State.loadFrame_hdr (x : Bits) (r : Nat) : (s.loadFrame x r).hdr = s.hdr := rfl
@[simp] theorem State.loadFrame_st (x : Bits) (r : Nat) : (s.loadFrame x r).st = s.st := rfl
@[simp] theorem State.loadFrame_pending (x : Bits) (r : Nat) : (s.loadFrame x r).pending = s.pending := rfl
@[simp] theorem State.loadFrame_reply (x : Bits) (r : Nat) : (s.loadFrame x r).reply = s.reply := rfl
@[simp] theorem State.loadFrame_getT (x : Bits) (r : Nat) (i : TReg) : (s.loadFrame x r).getT i = s.getT i := by cases i <;> rfl

@[simp] theorem State.setRC_cfg (v : Nat) : (s.setRC v).cfg = s.cfg := rfl
@[simp] theorem State.setRC_fb (v : Nat) : (s.setRC v).fb = s.fb := rfl
@[simp] theorem State.setRC_rc (v : Nat) : (s.setRC v).rc = v := rfl
@[simp] theorem State.setRC_t0 (v : Nat) : (s.setRC v).t0 = s.t0 := rfl
@[simp] theorem State.setRC_t1 (v : Nat) : (s.setRC v).t1 = s.t1 := rfl
@[simp] theorem State.setRC_t2 (v : Nat) : (s.setRC v).t2 = s.t2 := rfl
@[simp] theorem State.setRC_t3 (v : Nat) : (s.setRC v).t3 = s.t3 := rfl
@[simp] theorem State.setRC_flt (v : Nat) : (s.setRC v).flt = s.flt := rfl
@[simp] theorem State.setRC_hdr (v : Nat) : (s.setRC v).hdr = s.hdr := rfl
@[simp] theorem State.setRC_st (v : Nat) : (s.setRC v).st = s.st := rfl
@[simp] theorem State.setRC_pending (v : Nat) : (s.setRC v).pending = s.pending := rfl
@[simp] theorem State.setRC_reply (v : Nat) : (s.setRC v).reply = s.reply := rfl
@[simp] theorem State.setRC_getT (v : Nat) (i : TReg) : (s.setRC v).getT i = s.getT i := by cases i <;> rfl

@[simp] theorem State.setFrameInfo_cfg (f : BitVec 3) (h : Byte) : (s.setFrameInfo f h).cfg = s.cfg := rfl
@[simp] theorem State.setFrameInfo_fb (f : BitVec 3) (h : Byte) : (s.setFrameInfo f h).fb = s.fb := rfl
@[simp] theorem State.setFrameInfo_rc (f : BitVec 3) (h : Byte) : (s.setFrameInfo f h).rc = s.rc := rfl
@[simp] theorem State.setFrameInfo_t0 (f : BitVec 3) (h : Byte) : (s.setFrameInfo f h).t0 = s.t0 := rfl
@[simp] theorem State.setFrameInfo_t1 (f : BitVec 3) (h : Byte) : (s.setFrameInfo f h).t1 = s.t1 := rfl
@[simp] theorem State.setFrameInfo_t2 (f : BitVec 3) (h : Byte) : (s.setFrameInfo f h).t2 = s.t2 := rfl
@[simp] theorem State.setFrameInfo_t3 (f : BitVec 3) (h : Byte) : (s.setFrameInfo f h).t3 = s.t3 := rfl
@[simp] theorem State.setFrameInfo_flt (f : BitVec 3) (h : Byte) : (s.setFrameInfo f h).flt = f := rfl
@[simp] theorem State.setFrameInfo_hdr (f : BitVec 3) (h : Byte) : (s.setFrameInfo f h).hdr = h := rfl
@[simp] theorem State.setFrameInfo_st (f : BitVec 3) (h : Byte) : (s.setFrameInfo f h).st = s.st := rfl
@[simp] theorem State.setFrameInfo_pending (f : BitVec 3) (h : Byte) : (s.setFrameInfo f h).pending = s.pending := rfl
@[simp] theorem State.setFrameInfo_reply (f : BitVec 3) (h : Byte) : (s.setFrameInfo f h).reply = s.reply := rfl
@[simp] theorem State.setFrameInfo_getT (f : BitVec 3) (h : Byte) (i : TReg) : (s.setFrameInfo f h).getT i = s.getT i := by cases i <;> rfl

@[simp] theorem State.clearAll_cfg : s.clearAll.cfg = s.cfg := rfl
@[simp] theorem State.clearAll_fb : s.clearAll.fb = [] := rfl
@[simp] theorem State.clearAll_rc : s.clearAll.rc = 0 := rfl
@[simp] theorem State.clearAll_t0 : s.clearAll.t0 = [] := rfl
@[simp] theorem State.clearAll_t1 : s.clearAll.t1 = [] := rfl
@[simp] theorem State.clearAll_t2 : s.clearAll.t2 = [] := rfl
@[simp] theorem State.clearAll_t3 : s.clearAll.t3 = [] := rfl
@[simp] theorem State.clearAll_flt : s.clearAll.flt = 0 := rfl
@[simp] theorem State.clearAll_hdr : s.clearAll.hdr = 0 := rfl
@[simp] theorem State.clearAll_st : s.clearAll.st = 0 := rfl
@[simp] theorem State.clearAll_pending : s.clearAll.pending = s.pending := rfl
@[simp] theorem State.clearAll_reply : s.clearAll.reply = s.reply := rfl
@[simp] theorem State.clearAll_getT (i : TReg) : s.clearAll.getT i = [] := by cases i <;> rfl

@[simp] theorem State.raise_cfg (o : Byte) (e : Cause) : (s.raise o e).cfg = s.cfg := rfl
@[simp] theorem State.raise_fb (o : Byte) (e : Cause) : (s.raise o e).fb = s.fb := rfl
@[simp] theorem State.raise_rc (o : Byte) (e : Cause) : (s.raise o e).rc = s.rc := rfl
@[simp] theorem State.raise_t0 (o : Byte) (e : Cause) : (s.raise o e).t0 = s.t0 := rfl
@[simp] theorem State.raise_t1 (o : Byte) (e : Cause) : (s.raise o e).t1 = s.t1 := rfl
@[simp] theorem State.raise_t2 (o : Byte) (e : Cause) : (s.raise o e).t2 = s.t2 := rfl
@[simp] theorem State.raise_t3 (o : Byte) (e : Cause) : (s.raise o e).t3 = s.t3 := rfl
@[simp] theorem State.raise_flt (o : Byte) (e : Cause) : (s.raise o e).flt = s.flt := rfl
@[simp] theorem State.raise_hdr (o : Byte) (e : Cause) : (s.raise o e).hdr = s.hdr := rfl
@[simp] theorem State.raise_st (o : Byte) (e : Cause) : (s.raise o e).st = raisedStatus o e := rfl
@[simp] theorem State.raise_pending (o : Byte) (e : Cause) : (s.raise o e).pending = s.pending := rfl
@[simp] theorem State.raise_reply (o : Byte) (e : Cause) : (s.raise o e).reply = s.reply := rfl
@[simp] theorem State.raise_getT (o : Byte) (e : Cause) (i : TReg) : (s.raise o e).getT i = s.getT i := by cases i <;> rfl

@[simp] theorem State.withPending_cfg (as : List HostAction) : (s.withPending as).cfg = s.cfg := rfl
@[simp] theorem State.withPending_fb (as : List HostAction) : (s.withPending as).fb = s.fb := rfl
@[simp] theorem State.withPending_rc (as : List HostAction) : (s.withPending as).rc = s.rc := rfl
@[simp] theorem State.withPending_t0 (as : List HostAction) : (s.withPending as).t0 = s.t0 := rfl
@[simp] theorem State.withPending_t1 (as : List HostAction) : (s.withPending as).t1 = s.t1 := rfl
@[simp] theorem State.withPending_t2 (as : List HostAction) : (s.withPending as).t2 = s.t2 := rfl
@[simp] theorem State.withPending_t3 (as : List HostAction) : (s.withPending as).t3 = s.t3 := rfl
@[simp] theorem State.withPending_flt (as : List HostAction) : (s.withPending as).flt = s.flt := rfl
@[simp] theorem State.withPending_hdr (as : List HostAction) : (s.withPending as).hdr = s.hdr := rfl
@[simp] theorem State.withPending_st (as : List HostAction) : (s.withPending as).st = s.st := rfl
@[simp] theorem State.withPending_pending (as : List HostAction) : (s.withPending as).pending = as := rfl
@[simp] theorem State.withPending_reply (as : List HostAction) : (s.withPending as).reply = s.reply := rfl
@[simp] theorem State.withPending_getT (as : List HostAction) (i : TReg) : (s.withPending as).getT i = s.getT i := by cases i <;> rfl

@[simp] theorem State.answer_cfg (r : HostReply) : (s.answer r).cfg = s.cfg := rfl
@[simp] theorem State.answer_fb (r : HostReply) : (s.answer r).fb = s.fb := rfl
@[simp] theorem State.answer_rc (r : HostReply) : (s.answer r).rc = s.rc := rfl
@[simp] theorem State.answer_t0 (r : HostReply) : (s.answer r).t0 = s.t0 := rfl
@[simp] theorem State.answer_t1 (r : HostReply) : (s.answer r).t1 = s.t1 := rfl
@[simp] theorem State.answer_t2 (r : HostReply) : (s.answer r).t2 = s.t2 := rfl
@[simp] theorem State.answer_t3 (r : HostReply) : (s.answer r).t3 = s.t3 := rfl
@[simp] theorem State.answer_flt (r : HostReply) : (s.answer r).flt = s.flt := rfl
@[simp] theorem State.answer_hdr (r : HostReply) : (s.answer r).hdr = s.hdr := rfl
@[simp] theorem State.answer_st (r : HostReply) : (s.answer r).st = s.st := rfl
@[simp] theorem State.answer_pending (r : HostReply) : (s.answer r).pending = s.pending := rfl
@[simp] theorem State.answer_reply (r : HostReply) : (s.answer r).reply = some r := rfl
@[simp] theorem State.answer_getT (r : HostReply) (i : TReg) : (s.answer r).getT i = s.getT i := by cases i <;> rfl

@[simp] theorem State.setT_cfg (i : TReg) (x : Text) : (s.setT i x).cfg = s.cfg := by cases i <;> rfl
@[simp] theorem State.setT_fb (i : TReg) (x : Text) : (s.setT i x).fb = s.fb := by cases i <;> rfl
@[simp] theorem State.setT_rc (i : TReg) (x : Text) : (s.setT i x).rc = s.rc := by cases i <;> rfl
@[simp] theorem State.setT_flt (i : TReg) (x : Text) : (s.setT i x).flt = s.flt := by cases i <;> rfl
@[simp] theorem State.setT_hdr (i : TReg) (x : Text) : (s.setT i x).hdr = s.hdr := by cases i <;> rfl
@[simp] theorem State.setT_st (i : TReg) (x : Text) : (s.setT i x).st = s.st := by cases i <;> rfl
@[simp] theorem State.setT_pending (i : TReg) (x : Text) : (s.setT i x).pending = s.pending := by cases i <;> rfl
@[simp] theorem State.setT_reply (i : TReg) (x : Text) : (s.setT i x).reply = s.reply := by cases i <;> rfl

/-- A write of one text register is read back there and nowhere else (R23: they do not alias one another). -/
theorem State.getT_setT (i j : TReg) (x : Text) : (s.setT i x).getT j = if j = i then x else s.getT j := by
  cases i <;> cases j <;> rfl

@[simp] theorem State.getT_setT_same (i : TReg) (x : Text) : (s.setT i x).getT i = x := by cases i <;> rfl

theorem State.getT_setT_other (i j : TReg) (x : Text) (h : j ≠ i) : (s.setT i x).getT j = s.getT j := by
  rw [State.getT_setT, if_neg h]

@[simp] theorem State.getT_t0 : s.getT .t0 = s.t0 := rfl
@[simp] theorem State.getT_t1 : s.getT .t1 = s.t1 := rfl
@[simp] theorem State.getT_t2 : s.getT .t2 = s.t2 := rfl
@[simp] theorem State.getT_t3 : s.getT .t3 = s.t3 := rfl

theorem State.setT_t0 (x : Text) : s.setT .t0 x = { s with t0 := x } := rfl
theorem State.setT_t1 (x : Text) : s.setT .t1 x = { s with t1 := x } := rfl
theorem State.setT_t2 (x : Text) : s.setT .t2 x = { s with t2 := x } := rfl
theorem State.setT_t3 (x : Text) : s.setT .t3 x = { s with t3 := x } := rfl

@[simp] theorem State.setT_memAppend (i : TReg) (x : Text) (v : Bits) :
    (s.memAppend v).setT i x = (s.setT i x).memAppend v := by cases i <;> rfl

/-- The freeze test reads ST alone (R207). -/
theorem State.frozen_eq_of_st {s s' : State} (h : s'.st = s.st) : s'.frozen = s.frozen := by
  simp [State.frozen, h]

end Sys2Proof.Machine
end

