-- ==== Sys2Proof/Laws/Ops.lean ====
section
/-! SUPPORT. What the shared operations can do, said once: `require` and `>>=` on results, `commit`, `raise`,
`encInt`, `tryAppend`, and the fields of ST. -/

namespace Sys2Proof.Machine

/-! ### Results -/

theorem require_ok_iff {c : Prop} [Decidable c] {e : Cause} {u : Unit} : require c e = .ok u ↔ c := by
  unfold require; split <;> simp_all

theorem require_pos {c : Prop} [Decidable c] {e : Cause} (h : c) : require c e = .ok () := if_pos h

theorem require_neg {c : Prop} [Decidable c] {e : Cause} (h : ¬ c) : require c e = .error e := if_neg h

@[simp] theorem ok_bind {α β : Type} (a : α) (f : α → Except Cause β) : ((Except.ok a : Except Cause α) >>= f) = f a := rfl

@[simp] theorem error_bind {α β : Type} (e : Cause) (f : α → Except Cause β) :
    ((Except.error e : Except Cause α) >>= f) = .error e := rfl

@[simp] theorem pure_eq_ok {α : Type} (a : α) : (pure a : Except Cause α) = .ok a := rfl

theorem bind_eq_ok {α β : Type} {x : Except Cause α} {f : α → Except Cause β} {b : β} :
    (x >>= f) = .ok b ↔ ∃ a, x = .ok a ∧ f a = .ok b := by
  cases x <;> simp

theorem bind_eq_error {α β : Type} {x : Except Cause α} {f : α → Except Cause β} {e : Cause} :
    (x >>= f) = .error e ↔ x = .error e ∨ ∃ a, x = .ok a ∧ f a = .error e := by
  cases x <;> simp

/-- A passed `require` gives its condition and the rest of the computation. -/
theorem require_bind_ok {c : Prop} [Decidable c] {e : Cause} {α : Type} {f : Unit → Except Cause α} {a : α} :
    (require c e >>= f) = .ok a ↔ c ∧ f () = .ok a := by
  unfold require; split <;> simp_all

/-! ### commit and raise (R205, R206) -/

@[simp] theorem commit_ok (o : Opcode) (s s' : State) : commit o s (.ok s') = .next s' := rfl

@[simp] theorem commit_error (o : Opcode) (s : State) (e : Cause) : commit o s (.error e) = .next (s.raise o.byte e) := rfl

/-- Everything `commit` can do: it always answers a next state, either the computed one or the same state with the
error recorded. -/
theorem commit_cases (o : Opcode) (s : State) (r : Except Cause State) :
    (∃ s', r = .ok s' ∧ commit o s r = .next s') ∨ (∃ e, r = .error e ∧ commit o s r = .next (s.raise o.byte e)) := by
  cases r with
  | ok s' => exact .inl ⟨s', rfl, rfl⟩
  | error e => exact .inr ⟨e, rfl, rfl⟩

/-- The inversion of `commit`, for proofs about a next state. -/
theorem commit_next {o : Opcode} {s t : State} {r : Except Cause State} (h : commit o s r = .next t) :
    r = .ok t ∨ ∃ e, r = .error e ∧ t = s.raise o.byte e := by
  cases r with
  | ok s' => left; simpa using h
  | error e => right; exact ⟨e, rfl, by simpa using h.symm⟩

/-! ### The fields of ST (R26) -/

theorem toNat_append_add {m n : Nat} (x : BitVec m) (y : BitVec n) :
    (x ++ y).toNat = x.toNat * 2 ^ n + y.toNat := by
  rw [BitVec.toNat_append, ← Nat.shiftLeft_add_eq_or_of_lt y.isLt, Nat.shiftLeft_eq]

/-- ST as a number: EOP from bit 8, CAUSE from bit 2, ERR from bit 0 (R26). -/
theorem stWord_toNat (a : Byte) (b : BitVec 4) (c : BitVec 2) :
    (stWord a b c).toNat = a.toNat * 256 + b.toNat * 4 + c.toNat := by
  refine (toNat_append_add (a ++ (0 : BitVec 2) ++ b) c).trans ?_
  simp only [toNat_append_add, BitVec.toNat_ofNat, BitVec.ofNat_eq_ofNat]
  omega

theorem stErr_stWord (a : Byte) (b : BitVec 4) (c : BitVec 2) : stErr (stWord a b c) = c := by
  apply BitVec.eq_of_toNat_eq
  rw [stErr, BitVec.extractLsb'_toNat, stWord_toNat, Nat.shiftRight_eq_div_pow]
  omega

theorem stCause_stWord (a : Byte) (b : BitVec 4) (c : BitVec 2) : stCause (stWord a b c) = b := by
  apply BitVec.eq_of_toNat_eq
  rw [stCause, BitVec.extractLsb'_toNat, stWord_toNat, Nat.shiftRight_eq_div_pow]
  omega

theorem stReserved_stWord (a : Byte) (b : BitVec 4) (c : BitVec 2) : stReserved (stWord a b c) = 0 := by
  apply BitVec.eq_of_toNat_eq
  rw [stReserved, BitVec.extractLsb'_toNat, stWord_toNat, Nat.shiftRight_eq_div_pow]
  simp only [BitVec.ofNat_eq_ofNat, BitVec.toNat_ofNat]
  omega

theorem stEop_stWord (a : Byte) (b : BitVec 4) (c : BitVec 2) : stEop (stWord a b c) = a := by
  apply BitVec.eq_of_toNat_eq
  rw [stEop, BitVec.extractLsb'_toNat, stWord_toNat, Nat.shiftRight_eq_div_pow]
  omega

/-- No cause has class 0 or code 0 (R204). -/
theorem Cause.cls_ne_zero (e : Cause) : e.cls ≠ 0 := by cases e <;> decide

theorem Cause.code_ne_zero (e : Cause) : e.code ≠ 0 := by cases e <;> decide

/-- A raise always freezes the block (R205, R207). -/
theorem State.raise_frozen (s : State) (o : Byte) (e : Cause) : (s.raise o e).frozen = true := by
  simp only [State.frozen, State.raise_st, raisedStatus, stErr_stWord, bne_iff_ne]
  exact e.cls_ne_zero

/-! ### encInt and tryAppend -/

theorem encInt_of_lt {v n : Nat} (h : v < 2 ^ n) : encInt v n = .ok (bitsOf v n) := if_pos h

theorem encInt_of_le {v n : Nat} (h : 2 ^ n ≤ v) : encInt v n = .error .eNofit := if_neg (by omega)

/-- What `encInt` answers when it answers bits (R100). -/
theorem encInt_eq_ok {v n : Nat} {b : Bits} : encInt v n = .ok b ↔ v < 2 ^ n ∧ b = bitsOf v n := by
  unfold encInt; split <;> simp_all [eq_comm]

theorem tryAppend_eq_ok {s t : State} {b : Bits} :
    s.tryAppend b = .ok t ↔ s.fb.length + b.length ≤ s.cfg.fbcap ∧ t = s.memAppend b := by
  unfold State.tryAppend
  rw [require_bind_ok, pure_eq_ok, Except.ok.injEq, eq_comm (a := t)]

theorem tryAppend_of_le {s : State} {b : Bits} (h : s.fb.length + b.length ≤ s.cfg.fbcap) :
    s.tryAppend b = .ok (s.memAppend b) := tryAppend_eq_ok.mpr ⟨h, rfl⟩

theorem tryAppend_of_lt {s : State} {b : Bits} (h : s.cfg.fbcap < s.fb.length + b.length) :
    s.tryAppend b = .error .eFbfull := by
  unfold State.tryAppend; rw [require_neg (by omega)]; rfl

end Sys2Proof.Machine
end

