-- ==== Sys2Proof/Laws/Codec.lean ====
section
/-! SUPPORT. The building blocks of the string, hex, partition and check-digit units: lengths, one group at a time,
and table lookup under `Config.wf`. -/

namespace Sys2Proof.Machine

/-! ### Strings (41_string) -/

@[simp] theorem packChars_nil : packChars [] = [] := rfl

theorem packChars_cons (c : Char7) (s : Text) : packChars (c :: s) = bitsOf c.toNat 7 ++ packChars s := rfl

@[simp] theorem packChars_length (s : Text) : (packChars s).length = 7 * s.length := by
  induction s with
  | nil => rfl
  | cons c cs ih => rw [packChars_cons, List.length_append, bitsOf_length, ih, List.length_cons]; ring

/-- What `encStr` answers when it answers bits (R110). -/
theorem encStr_eq_ok {s : Text} {n : Nat} {b : Bits} :
    encStr s n = .ok b ↔ s.length ≤ n / 7 ∧ b = packChars s ++ zeros (n - 7 * s.length) := by
  unfold encStr; split <;> simp_all [eq_comm]

theorem encStr_length {s : Text} {n : Nat} {b : Bits} (h : encStr s n = .ok b) : b.length = n := by
  obtain ⟨h1, rfl⟩ := encStr_eq_ok.mp h
  simp; omega

/-- A list of seven or more bits starts with a whole group. -/
theorem groups7_append (x y : Bits) (h : x.length = 7) : groups7 (x ++ y) = BitVec.ofNat 7 (uint x) :: groups7 y := by
  match x, h with
  | [a, b, c, d, e, f, g], _ => rfl

theorem groups7_char (c : Char7) (y : Bits) : groups7 (bitsOf c.toNat 7 ++ y) = c :: groups7 y := by
  rw [groups7_append _ _ (by simp), uint_bitsOf_of_lt c.isLt]
  simp

theorem groups7_short {b : Bits} (h : b.length < 7) : groups7 b = [] := by
  unfold groups7
  split
  · simp only [List.length_cons] at h; omega
  · rfl

theorem groups7_length (b : Bits) : (groups7 b).length = b.length / 7 := by
  induction hn : b.length using Nat.strong_induction_on generalizing b with
  | _ n ih =>
    by_cases h : b.length < 7
    · rw [groups7_short h, ← hn, Nat.div_eq_of_lt h]; rfl
    · have hd := ih (b.drop 7).length (by simp; omega) (b.drop 7) rfl
      rw [← List.take_append_drop 7 b, groups7_append _ _ (by simp; omega), List.length_cons, hd]
      simp; omega

theorem decStr_length_le (b : Bits) : (decStr b).length ≤ b.length / 7 := by
  rw [decStr, ← groups7_length]; exact List.length_filter_le _ _

/-! ### Hex (42_hex) -/

theorem hexDigit_toNat {v : Nat} (h : v < 16) : (hexDigit v).toNat = if v < 10 then 48 + v else 55 + v := by
  unfold hexDigit; split <;> simp only [BitVec.toNat_ofNat] <;> omega

theorem hexVal_hexDigit {v : Nat} (h : v < 16) : hexVal (hexDigit v) = v := by
  interval_cases v <;> decide

theorem isHexDigit_hexDigit {v : Nat} (h : v < 16) : isHexDigit (hexDigit v) = true := by
  interval_cases v <;> decide

theorem hexDigit_hexVal {c : Char7} (h : isHexDigit c = true) : hexDigit (hexVal c) = c := by
  revert c; decide

theorem hexVal_lt {c : Char7} (h : isHexDigit c = true) : hexVal c < 16 := by
  revert c; decide

theorem hexGroups_append (x y : Bits) (h : x.length = 4) : hexGroups (x ++ y) = hexDigit (uint x) :: hexGroups y := by
  match x, h with
  | [a, b, c, d], _ => rfl

theorem hexExpand_cons (c : Char7) (h : Text) : hexExpand (c :: h) = bitsOf (hexVal c) 4 ++ hexExpand h := rfl

@[simp] theorem hexExpand_length (h : Text) : (hexExpand h).length = 4 * h.length := by
  induction h with
  | nil => rfl
  | cons c cs ih => rw [hexExpand_cons, List.length_append, bitsOf_length, ih, List.length_cons]; ring

theorem hexGroups_short {b : Bits} (h : b.length < 4) : hexGroups b = [] := by
  unfold hexGroups
  split
  · simp only [List.length_cons] at h; omega
  · rfl

theorem hexGroups_length (b : Bits) : (hexGroups b).length = b.length / 4 := by
  induction hn : b.length using Nat.strong_induction_on generalizing b with
  | _ n ih =>
    by_cases h : b.length < 4
    · rw [hexGroups_short h, ← hn, Nat.div_eq_of_lt h]; rfl
    · have hd := ih (b.drop 4).length (by simp; omega) (b.drop 4) rfl
      rw [← List.take_append_drop 4 b, hexGroups_append _ _ (by simp; omega), List.length_cons, hd]
      simp; omega

/-- `ceil(|b| / 4)` characters (R120). -/
theorem binToHex_length (b : Bits) : (binToHex b).length = (b.length + 3) / 4 := by
  rw [binToHex, hexGroups_length]; simp; omega

/-- What `hexToBin` answers when it answers bits (R121). -/
theorem hexToBin_eq_ok {h : Text} {n : Nat} {x : Bits} :
    hexToBin h n = .ok x ↔ isHex h = true ∧ n ≤ 4 * h.length ∧ x = (hexExpand h).take n := by
  unfold hexToBin
  rw [require_bind_ok, require_bind_ok, pure_eq_ok, Except.ok.injEq, eq_comm (a := x)]

theorem hexToBin_length {h : Text} {n : Nat} {x : Bits} (hx : hexToBin h n = .ok x) : x.length = n := by
  obtain ⟨_, h2, rfl⟩ := hexToBin_eq_ok.mp hx
  simp; omega

/-! ### The partition tables (43_partition R130, R134) -/

/-- Under `tableFits` an entry of the table meets R130 at its own index, which is 0 to 6. -/
theorem fits_of_mem {digits total : Nat} {t : List PartEntry} (h : tableFits digits total t = true) {e : PartEntry}
    (he : e ∈ t) : e.p < 7 ∧ e.d1 = 12 - e.p ∧ e.d2 = digits - e.d1 ∧ 3 + e.b1 + e.b2 = total ∧ 0 < e.b1 ∧ 0 < e.b2 := by
  simp only [tableFits, Bool.and_eq_true, beq_iff_eq, List.all_eq_true, List.mem_range] at h
  obtain ⟨i, hi, rfl⟩ := List.getElem_of_mem he
  have h2 := h.2 i (by omega)
  rw [List.getElem?_eq_getElem hi] at h2
  simp only [Option.any_some, PartEntry.fits, decide_eq_true_eq] at h2
  obtain ⟨h3, h4, h5⟩ := h2
  refine ⟨by omega, by omega, h5⟩

/-- Under `tableFits` every index 0 to 6 has an entry. -/
theorem exists_entry {digits total : Nat} {t : List PartEntry} (h : tableFits digits total t = true) {p : Nat}
    (hp : p < 7) : ∃ e, t[p]? = some e ∧ e.p = p := by
  simp only [tableFits, Bool.and_eq_true, beq_iff_eq, List.all_eq_true, List.mem_range] at h
  have h2 := h.2 p hp
  rw [List.getElem?_eq_getElem (by omega)] at h2 ⊢
  simp only [Option.any_some, PartEntry.fits, decide_eq_true_eq] at h2
  exact ⟨_, rfl, h2.1⟩

/-- Two entries of one index are the same entry. -/
theorem entry_unique {digits total : Nat} {t : List PartEntry} (h : tableFits digits total t = true)
    {e e' : PartEntry} (he : e ∈ t) (he' : e' ∈ t) (hp : e.p = e'.p) : e = e' := by
  simp only [tableFits, Bool.and_eq_true, beq_iff_eq, List.all_eq_true, List.mem_range] at h
  have key : ∀ x ∈ t, t[x.p]? = some x := by
    intro x hx
    obtain ⟨i, hi, rfl⟩ := List.getElem_of_mem hx
    have h2 := h.2 i (by omega)
    rw [List.getElem?_eq_getElem hi] at h2
    simp only [Option.any_some, PartEntry.fits, decide_eq_true_eq] at h2
    rw [h2.1, List.getElem?_eq_getElem hi]
  have h1 := key e he
  rw [hp, key e' he'] at h1
  exact (Option.some.inj h1).symm

/-- The number of digits of prefix and companion field, and of segment bits, of a family (R130). -/
def famDigits : Family → Nat
  | .sgtin => 13
  | .sscc => 17

/-- See `famDigits`. -/
def famTotal : Family → Nat
  | .sgtin => 47
  | .sscc => 61

theorem table_fits {c : Config} (h : c.wf = true) (fam : Family) :
    tableFits (famDigits fam) (famTotal fam) (table c fam) = true := by
  simp only [Config.wf, Bool.and_eq_true] at h
  cases fam
  · exact h.1.2
  · exact h.2

/-- `PT(fam, p)` is the entry of index `p`. -/
theorem PT_eq_some {c : Config} (h : c.wf = true) {fam : Family} {p : Nat} {e : PartEntry} :
    PT c fam p = some e ↔ e ∈ table c fam ∧ e.p = p := by
  constructor
  · intro hp
    exact ⟨List.mem_of_find?_eq_some hp, by simpa using List.find?_some hp⟩
  · rintro ⟨he, rfl⟩
    have : (PT c fam e.p).isSome := by
      simp only [PT, List.find?_isSome]
      exact ⟨e, he, by simp⟩
    obtain ⟨e', he'⟩ := Option.isSome_iff_exists.mp this
    rw [he']
    rw [entry_unique (table_fits h fam) he (List.mem_of_find?_eq_some he')
      (by have := List.find?_some he'; simp only [beq_iff_eq] at this; exact this.symm)]

theorem PT_isSome {c : Config} (h : c.wf = true) (fam : Family) {p : Nat} (hp : p < 7) : ∃ e, PT c fam p = some e := by
  obtain ⟨e, he, hep⟩ := exists_entry (table_fits h fam) hp
  exact ⟨e, (PT_eq_some h).mpr ⟨List.mem_of_getElem? he, hep⟩⟩

theorem PT_eq_none {c : Config} (h : c.wf = true) (fam : Family) {p : Nat} (hp : 7 ≤ p) : PT c fam p = none := by
  rcases hn : PT c fam p with _ | e
  · rfl
  · obtain ⟨he, hep⟩ := (PT_eq_some h).mp hn
    have := (fits_of_mem (table_fits h fam) he).1
    omega

theorem lookup_eq_ok {c : Config} {fam : Family} {p : Nat} {x : Cause} {e : PartEntry} :
    lookup c fam p x = .ok e ↔ PT c fam p = some e := by
  unfold lookup; cases PT c fam p <;> simp

/-! ### Capacities (00_scope R5) -/

theorem Config.wf_caps {c : Config} (h : c.wf = true) :
    198 ≤ c.fbcap ∧ c.fbcap ≤ 255 ∧ 2 ^ c.fbcap ≤ 10 ^ c.txcap ∧ c.fbcap ≤ 4 * c.txcap ∧ 20 ≤ c.txcap := by
  simp only [Config.wf, Bool.and_eq_true, decide_eq_true_eq] at h
  exact h.1.1

/-- "no decoded decimal overflows" (R5): the decimal of a slice of at most FBCAP bits has at most TXCAP digits. -/
theorem decInt_length_le {c : Config} (h : c.wf = true) {b : Bits} (hb : b.length ≤ c.fbcap) :
    (decInt b).length ≤ c.txcap := by
  have hc := Config.wf_caps h
  rw [decInt, dec_length_le (by omega)]
  exact lt_of_lt_of_le (uint_lt b) ((Nat.pow_le_pow_right (by omega) hb).trans hc.2.2.1)

/-! ### The check digit (44_checkdigit) -/

theorem chk_isDigit (ds : Text) : isDigit (chk ds) = true := isDigit_digitChar (Nat.mod_lt _ (by omega))

theorem digitVal_chk (ds : Text) : digitVal (chk ds) = (10 - checkSum ds % 10) % 10 :=
  digitVal_digitChar (Nat.mod_lt _ (by omega))

theorem weighted_append (odd : Bool) (xs ys : List Nat) :
    weighted odd (xs ++ ys) = weighted odd xs + weighted (odd ^^ (xs.length % 2 == 1)) ys := by
  induction xs generalizing odd with
  | nil => simp [weighted]
  | cons x xs ih =>
    simp only [List.cons_append, weighted, ih, List.length_cons]
    have : (!odd ^^ (xs.length % 2 == 1)) = (odd ^^ ((xs.length + 1) % 2 == 1)) := by
      rcases Nat.mod_two_eq_zero_or_one xs.length with h | h <;> cases odd <;> simp [Nat.add_mod, h]
    rw [this]; ring

/-- The two weightings of one list of digits sum to four times its digit sum. -/
theorem weighted_both (xs : List Nat) : weighted true xs + weighted false xs = 4 * xs.sum := by
  induction xs with
  | nil => rfl
  | cons x xs ih => simp only [weighted, List.sum_cons, Bool.not_true, Bool.not_false]; simp; omega

end Sys2Proof.Machine
end

