-- ==== Sys2Proof/Laws/Decode.lean ====
section
/-! SUPPORT. The fields of a word built from fields (30_encoding R61), and the opcode map read both ways (R63). -/

namespace Sys2Proof

open Machine (toNat_append_add)

section
variable (op : Byte) (ta tb : BitVec 2) (flt : BitVec 3) (fam : BitVec 1) (n imm : Byte)

/-- The sum of R61. -/
theorem wordOf_toNat :
    (wordOf op ta tb flt fam n imm).toNat = op.toNat * 2 ^ 24 + ta.toNat * 2 ^ 22 + tb.toNat * 2 ^ 20
      + flt.toNat * 2 ^ 17 + fam.toNat * 2 ^ 16 + n.toNat * 2 ^ 8 + imm.toNat := by
  refine (toNat_append_add (op ++ ta ++ tb ++ flt ++ fam ++ n) imm).trans ?_
  simp only [toNat_append_add]
  omega

theorem fieldOp_wordOf : fieldOp (wordOf op ta tb flt fam n imm) = op := by
  apply BitVec.eq_of_toNat_eq
  rw [fieldOp, BitVec.extractLsb'_toNat, wordOf_toNat, Nat.shiftRight_eq_div_pow]; omega

theorem fieldTa_wordOf : fieldTa (wordOf op ta tb flt fam n imm) = ta := by
  apply BitVec.eq_of_toNat_eq
  rw [fieldTa, BitVec.extractLsb'_toNat, wordOf_toNat, Nat.shiftRight_eq_div_pow]; omega

theorem fieldTb_wordOf : fieldTb (wordOf op ta tb flt fam n imm) = tb := by
  apply BitVec.eq_of_toNat_eq
  rw [fieldTb, BitVec.extractLsb'_toNat, wordOf_toNat, Nat.shiftRight_eq_div_pow]; omega

theorem fieldFlt_wordOf : fieldFlt (wordOf op ta tb flt fam n imm) = flt := by
  apply BitVec.eq_of_toNat_eq
  rw [fieldFlt, BitVec.extractLsb'_toNat, wordOf_toNat, Nat.shiftRight_eq_div_pow]; omega

theorem fieldFam_wordOf : fieldFam (wordOf op ta tb flt fam n imm) = fam := by
  apply BitVec.eq_of_toNat_eq
  rw [fieldFam, BitVec.extractLsb'_toNat, wordOf_toNat, Nat.shiftRight_eq_div_pow]; omega

theorem fieldN_wordOf : fieldN (wordOf op ta tb flt fam n imm) = n := by
  apply BitVec.eq_of_toNat_eq
  rw [fieldN, BitVec.extractLsb'_toNat, wordOf_toNat, Nat.shiftRight_eq_div_pow]; omega

theorem fieldImm_wordOf : fieldImm (wordOf op ta tb flt fam n imm) = imm := by
  apply BitVec.eq_of_toNat_eq
  rw [fieldImm, BitVec.extractLsb'_toNat, wordOf_toNat, Nat.shiftRight_eq_div_pow]; omega

end

/-- Every word is the word of its fields. -/
theorem wordOf_fields (w : Word) :
    wordOf (fieldOp w) (fieldTa w) (fieldTb w) (fieldFlt w) (fieldFam w) (fieldN w) (fieldImm w) = w := by
  apply BitVec.eq_of_toNat_eq
  rw [wordOf_toNat]
  simp only [fieldOp, fieldTa, fieldTb, fieldFlt, fieldFam, fieldN, fieldImm, BitVec.extractLsb'_toNat,
    Nat.shiftRight_eq_div_pow]
  have := w.isLt
  omega

theorem ofBits_bits (r : TReg) : TReg.ofBits r.bits = r := by cases r <;> rfl

theorem bits_ofBits (b : BitVec 2) : (TReg.ofBits b).bits = b := by revert b; decide

theorem ofBit_bit (f : Family) : Family.ofBit f.bit = f := by cases f <;> rfl

theorem bit_ofBit (b : BitVec 1) : (Family.ofBit b).bit = b := by revert b; decide

/-- Every row is found by its opcode byte. -/
theorem ofByte_byte (o : Opcode) : Opcode.ofByte o.byte = some o := by cases o <;> rfl

/-- The row found for a byte has that byte. -/
theorem byte_of_ofByte {b : Byte} {o : Opcode} (h : Opcode.ofByte b = some o) : o.byte = b := by
  have := List.find?_some h
  simpa using this

/-- A field by field conjunction of two words. -/
theorem wordOf_and (op op' : Byte) (ta ta' tb tb' : BitVec 2) (flt flt' : BitVec 3) (fam fam' : BitVec 1)
    (n n' imm imm' : Byte) :
    wordOf op ta tb flt fam n imm &&& wordOf op' ta' tb' flt' fam' n' imm' =
      wordOf (op &&& op') (ta &&& ta') (tb &&& tb') (flt &&& flt') (fam &&& fam') (n &&& n') (imm &&& imm') := by
  have h : ∀ {a b : Nat} (x x' : BitVec a) (y y' : BitVec b), (x ++ y) &&& (x' ++ y') = (x &&& x') ++ (y &&& y') := by
    intro a b x x' y y'
    exact BitVec.and_append
  simp only [wordOf]
  erw [h, h, h, h, h, h]

end Sys2Proof
end

