-- ==== Sys2Proof/Laws/Exec.lean ====
section
/-! SUPPORT. One inversion lemma per command: a next state of `exec` is the recorded error, or the command's own effect
under its guards. Proofs about next states cite these and never unfold a meaning. -/

namespace Sys2Proof.Machine

/-! ### The partition and segment functions -/

theorem encPart_eq_ok {c : Config} {fam : Family} {f1 f2 : Text} {b : Bits} :
    encPart c fam f1 f2 = .ok b ↔ (6 ≤ f1.length ∧ f1.length ≤ 12) ∧ isDigits f1 = true ∧
      (f2 ≠ [] ∧ isDigits f2 = true) ∧ ∃ e, PT c fam (12 - f1.length) = some e ∧ intValue f1 < 2 ^ e.b1 ∧
        intValue f2 < 2 ^ e.b2 ∧ e.p < 2 ^ 3 ∧
        b = bitsOf e.p 3 ++ bitsOf (intValue f1) e.b1 ++ bitsOf (intValue f2) e.b2 := by
  unfold encPart
  simp only [bind_eq_ok, require_ok_iff, exists_and_left, exists_const, pure_eq_ok, Except.ok.injEq, lookup_eq_ok,
    encInt_eq_ok]
  constructor
  · rintro ⟨h1, h2, h3, e, he, _, ⟨h4, rfl⟩, _, ⟨h5, rfl⟩, _, ⟨h6, rfl⟩, rfl⟩
    exact ⟨h1, h2, h3, e, he, h4, h5, h6, rfl⟩
  · rintro ⟨h1, h2, h3, e, he, h4, h5, h6, rfl⟩
    exact ⟨h1, h2, h3, e, he, _, ⟨h4, rfl⟩, _, ⟨h5, rfl⟩, _, ⟨h6, rfl⟩, rfl⟩

theorem encSeg_eq_ok {c : Config} {fam : Family} {f1 f2 : Text} {b : Bits} :
    encSeg c fam f1 f2 = .ok b ↔ (6 ≤ f1.length ∧ f1.length ≤ 12) ∧
      ∃ e, PT c fam (12 - f1.length) = some e ∧ f2.length = e.d2 ∧ encPart c fam f1 f2 = .ok b := by
  unfold encSeg
  simp only [bind_eq_ok, require_ok_iff, exists_and_left, exists_const, lookup_eq_ok]

/-- The segment has 47 or 61 bits whatever the partition (20_memory R46). -/
theorem encPart_length {c : Config} (hc : c.wf = true) {fam : Family} {f1 f2 : Text} {b : Bits}
    (h : encPart c fam f1 f2 = .ok b) : b.length = famTotal fam := by
  obtain ⟨_, _, _, e, he, _, _, _, rfl⟩ := encPart_eq_ok.mp h
  have := fits_of_mem (table_fits hc fam) ((PT_eq_some hc).mp he).1
  simp only [List.length_append, bitsOf_length]
  exact this.2.2.2.1

theorem encSeg_length {c : Config} (hc : c.wf = true) {fam : Family} {f1 f2 : Text} {b : Bits}
    (h : encSeg c fam f1 f2 = .ok b) : b.length = famTotal fam := by
  obtain ⟨_, e, _, _, he⟩ := encSeg_eq_ok.mp h
  exact encPart_length hc he

theorem decPart_eq_ok {c : Config} {fam : Family} {b : Bits} {f : Text × Text} :
    decPart c fam b = .ok f ↔ 3 ≤ b.length ∧ ∃ e, PT c fam (uint (slice b 0 3)) = some e ∧
      3 + e.b1 + e.b2 ≤ b.length ∧
      ((decInt (slice b 3 e.b1)).length ≤ e.d1 ∧ (decInt (slice b (3 + e.b1) e.b2)).length ≤ e.d2) ∧
      f = (zpad (decInt (slice b 3 e.b1)) e.d1, zpad (decInt (slice b (3 + e.b1) e.b2)) e.d2) := by
  unfold decPart
  simp only [bind_eq_ok, require_ok_iff, exists_and_left, exists_const, pure_eq_ok, Except.ok.injEq, lookup_eq_ok,
    eq_comm (a := f)]

/-- The decoded fields fit their registers: 12 and 11 digits at most. -/
theorem decPart_length {c : Config} (hc : c.wf = true) {fam : Family} {b : Bits} {f : Text × Text}
    (h : decPart c fam b = .ok f) : f.1.length ≤ 12 ∧ f.2.length ≤ 12 := by
  obtain ⟨_, e, he, _, h3, rfl⟩ := decPart_eq_ok.mp h
  have h4 := fits_of_mem (table_fits hc fam) ((PT_eq_some hc).mp he).1
  have : famDigits fam ≤ 17 := by cases fam <;> decide
  simp only [zpad_length h3.1, zpad_length h3.2]
  omega

/-! ### The commands -/

/-- The shape of every lemma below: the command raised, or `good` holds of the next state. -/
abbrev RaisedOr (o : Opcode) (s t : State) (good : Prop) : Prop := (∃ e, t = s.raise o.byte e) ∨ good

theorem commit_cases_next {o : Opcode} {s t : State} {r : Except Cause State} {good : Prop}
    (h : commit o s r = .next t) (hg : r = .ok t → good) : RaisedOr o s t good := by
  rcases commit_next h with h | ⟨e, _, h⟩
  · exact .inr (hg h)
  · exact .inl ⟨e, h⟩

variable {s t : State}

theorem exec_rst_next (h : exec .rst s = .next t) : t = s.clearAll := by injection h with h; exact h.symm

theorem exec_clr_next (h : exec .clr s = .next t) : t = s.loadFrame [] 0 := by injection h with h; exact h.symm

theorem exec_rew_next (h : exec .rew s = .next t) : t = s.setRC 0 := by injection h with h; exact h.symm

theorem exec_enci_next {ta : TReg} {n : Nat} (h : exec (.enci ta n) s = .next t) :
    RaisedOr .enci s t ((s.getT ta ≠ [] ∧ isDigits (s.getT ta) = true) ∧ intValue (s.getT ta) < 2 ^ n ∧
      s.fb.length + n ≤ s.cfg.fbcap ∧ t = s.memAppend (bitsOf (intValue (s.getT ta)) n)) := by
  refine commit_cases_next h fun hr => ?_
  simp only [bind_eq_ok, require_ok_iff, exists_and_left, exists_const, encInt_eq_ok, tryAppend_eq_ok] at hr
  obtain ⟨h1, _, ⟨h2, rfl⟩, h3, h4⟩ := hr
  exact ⟨h1, h2, by simpa using h3, h4⟩

theorem exec_encii_next {imm n : Nat} (h : exec (.encii imm n) s = .next t) :
    RaisedOr .encii s t (imm < 2 ^ n ∧ s.fb.length + n ≤ s.cfg.fbcap ∧ t = s.memAppend (bitsOf imm n)) := by
  refine commit_cases_next h fun hr => ?_
  simp only [bind_eq_ok, encInt_eq_ok, tryAppend_eq_ok] at hr
  obtain ⟨_, ⟨h2, rfl⟩, h3, h4⟩ := hr
  exact ⟨h2, by simpa using h3, h4⟩

theorem exec_deci_next {ta : TReg} {n : Nat} (h : exec (.deci ta n) s = .next t) :
    RaisedOr .deci s t (1 ≤ n ∧ s.rc + n ≤ s.fb.length ∧
      t = (s.setT ta (decInt (s.memRead s.rc n))).setRC (s.rc + n)) := by
  refine commit_cases_next h fun hr => ?_
  simp only [bind_eq_ok, require_ok_iff, exists_and_left, exists_const, pure_eq_ok, Except.ok.injEq] at hr
  exact ⟨hr.1, hr.2.1, hr.2.2.symm⟩

theorem exec_encs_next {ta : TReg} {n : Nat} (h : exec (.encs ta n) s = .next t) :
    RaisedOr .encs s t ((s.getT ta).length ≤ n / 7 ∧ s.fb.length + n ≤ s.cfg.fbcap ∧
      t = s.memAppend (packChars (s.getT ta) ++ zeros (n - 7 * (s.getT ta).length))) := by
  refine commit_cases_next h fun hr => ?_
  simp only [bind_eq_ok, tryAppend_eq_ok] at hr
  obtain ⟨b, h1, h2, h3⟩ := hr
  rw [encStr_length h1] at h2
  obtain ⟨h4, rfl⟩ := encStr_eq_ok.mp h1
  exact ⟨h4, h2, h3⟩

theorem exec_decs_next {ta : TReg} {n : Nat} (h : exec (.decs ta n) s = .next t) :
    RaisedOr .decs s t (n % 7 = 0 ∧ s.rc + n ≤ s.fb.length ∧
      t = (s.setT ta (decStr (s.memRead s.rc n))).setRC (s.rc + n)) := by
  refine commit_cases_next h fun hr => ?_
  simp only [bind_eq_ok, require_ok_iff, exists_and_left, exists_const, pure_eq_ok, Except.ok.injEq] at hr
  exact ⟨hr.1, hr.2.1, hr.2.2.symm⟩

theorem exec_b2h_next {ta : TReg} (h : exec (.b2h ta) s = .next t) : t = s.setT ta (binToHex s.fb) := by
  have h' : (Host.Outcome.next (s.setT ta (binToHex s.fb)) : Result) = .next t := h
  injection h' with h'; exact h'.symm

theorem exec_h2b_next {ta : TReg} {n : Nat} (h : exec (.h2b ta n) s = .next t) :
    RaisedOr .h2b s t (∃ x, hexToBin (s.getT ta) n = .ok x ∧ n ≤ s.cfg.fbcap ∧ t = s.loadFrame x 0) := by
  refine commit_cases_next h fun hr => ?_
  simp only [bind_eq_ok, require_ok_iff, exists_and_left, exists_const, pure_eq_ok, Except.ok.injEq] at hr
  obtain ⟨_, ⟨h2, _⟩, x, h3, h4⟩ := hr
  exact ⟨x, h3, h2, h4.symm⟩

theorem exec_encp_next {fam : Family} {ta tb : TReg} (h : exec (.encp fam ta tb) s = .next t) :
    RaisedOr .encp s t (∃ b, encPart s.cfg fam (s.getT ta) (s.getT tb) = .ok b ∧
      s.fb.length + b.length ≤ s.cfg.fbcap ∧ t = s.memAppend b) := by
  refine commit_cases_next h fun hr => ?_
  simp only [bind_eq_ok, tryAppend_eq_ok] at hr
  exact hr

theorem exec_decp_next {fam : Family} {ta tb : TReg} (h : exec (.decp fam ta tb) s = .next t) :
    RaisedOr .decp s t (∃ f e, decPart s.cfg fam (s.memRead s.rc (s.fb.length - s.rc)) = .ok f ∧
      PT s.cfg fam (uint (slice (s.memRead s.rc (s.fb.length - s.rc)) 0 3)) = some e ∧
      t = ((s.setT ta f.1).setT tb f.2).setRC (s.rc + 3 + e.b1 + e.b2)) := by
  refine commit_cases_next h fun hr => ?_
  simp only [bind_eq_ok, lookup_eq_ok, pure_eq_ok, Except.ok.injEq] at hr
  obtain ⟨f, h1, e, h2, h3⟩ := hr
  exact ⟨f, e, h1, h2, h3.symm⟩

theorem exec_chk_next {ta tb : TReg} (h : exec (.chk ta tb) s = .next t) :
    RaisedOr .chk s t (isDigits (s.getT ta) = true ∧ t = s.setT tb [chk (s.getT ta)]) := by
  refine commit_cases_next h fun hr => ?_
  simp only [bind_eq_ok, require_ok_iff, exists_and_left, exists_const, pure_eq_ok, Except.ok.injEq] at hr
  exact ⟨hr.1, hr.2.symm⟩

theorem exec_esg96_next {flt : BitVec 3} (h : exec (.esg96 flt) s = .next t) :
    RaisedOr .esg96 s t (validSerial96 s.t2 = true ∧ ∃ seg, encSeg s.cfg .sgtin s.t0 s.t1 = .ok seg ∧
      intValue s.t2 < 2 ^ 38 ∧
      t = s.emitFrame (bitsOf 0x30 8 ++ bitsOf flt.toNat 3 ++ seg ++ bitsOf (intValue s.t2) 38)) := by
  refine commit_cases_next h fun hr => ?_
  simp only [bind_eq_ok, require_ok_iff, exists_and_left, exists_const, pure_eq_ok, Except.ok.injEq, encInt_eq_ok] at hr
  obtain ⟨h1, seg, h2, _, ⟨_, rfl⟩, _, ⟨_, rfl⟩, _, ⟨h3, rfl⟩, h4⟩ := hr
  exact ⟨h1, seg, h2, h3, h4.symm⟩

theorem exec_esg198_next {flt : BitVec 3} (h : exec (.esg198 flt) s = .next t) :
    RaisedOr .esg198 s t (∃ seg ser, encSeg s.cfg .sgtin s.t0 s.t1 = .ok seg ∧ encStr s.t2 140 = .ok ser ∧
      t = s.emitFrame (bitsOf 0x36 8 ++ bitsOf flt.toNat 3 ++ seg ++ ser)) := by
  refine commit_cases_next h fun hr => ?_
  simp only [bind_eq_ok, pure_eq_ok, Except.ok.injEq, encInt_eq_ok] at hr
  obtain ⟨seg, h1, ser, h2, _, ⟨_, rfl⟩, _, ⟨_, rfl⟩, h4⟩ := hr
  exact ⟨seg, ser, h1, h2, h4.symm⟩

theorem exec_ess96_next {flt : BitVec 3} (h : exec (.ess96 flt) s = .next t) :
    RaisedOr .ess96 s t ((s.t1 ≠ [] ∧ isDigits s.t1 = true) ∧ ∃ seg, encSeg s.cfg .sscc s.t0 s.t1 = .ok seg ∧
      t = s.emitFrame (bitsOf 0x31 8 ++ bitsOf flt.toNat 3 ++ seg ++ zeros 24)) := by
  refine commit_cases_next h fun hr => ?_
  simp only [bind_eq_ok, require_ok_iff, exists_and_left, exists_const, pure_eq_ok, Except.ok.injEq, encInt_eq_ok] at hr
  obtain ⟨h1, seg, h2, _, ⟨_, rfl⟩, _, ⟨_, rfl⟩, h4⟩ := hr
  exact ⟨h1, seg, h2, h4.symm⟩

/-- The state after a successful DSG (45_frames R167), from the bits `x`, their number `n` and the two fields. -/
def dsgState (s : State) (x : Bits) (n : Nat) (f : Text × Text) : State :=
  ((((s.loadFrame x n).setT .t0 f.1).setT .t1 f.2).setT .t2
    (if n = 96 then decInt (slice x 58 38) else decStr (slice x 58 140))).setFrameInfo
    (BitVec.ofNat 3 (uint (slice x 8 3))) (if n = 96 then 0x30 else 0x36)

theorem exec_dsg_next (h : exec .dsg s = .next t) :
    RaisedOr .dsg s t (∃ n x f, ((s.t3.take 2 = ascii "30" ∧ n = 96) ∨ (s.t3.take 2 = ascii "36" ∧ n = 198)) ∧
      hexToBin s.t3 n = .ok x ∧ decPart s.cfg .sgtin (slice x 11 47) = .ok f ∧ t = dsgState s x n f) := by
  refine commit_cases_next h fun hr => ?_
  simp only [bind_eq_ok, require_ok_iff, exists_and_left, exists_const, pure_eq_ok, Except.ok.injEq] at hr
  obtain ⟨h1, x, h2, f, h3, h4⟩ := hr
  refine ⟨_, x, f, ?_, h2, h3, h4.symm⟩
  rcases h1 with h1 | h1
  · exact .inl ⟨h1, if_pos h1⟩
  · refine .inr ⟨h1, if_neg ?_⟩
    rw [h1]; decide

theorem exec_dss_next (h : exec .dss s = .next t) :
    RaisedOr .dss s t (∃ x f, s.t3.take 2 = ascii "31" ∧ hexToBin s.t3 96 = .ok x ∧
      decPart s.cfg .sscc (slice x 11 61) = .ok f ∧
      t = (((s.loadFrame x 72).setT .t0 f.1).setT .t1 f.2).setFrameInfo (BitVec.ofNat 3 (uint (slice x 8 3))) 0x31) := by
  refine commit_cases_next h fun hr => ?_
  simp only [bind_eq_ok, require_ok_iff, exists_and_left, exists_const, pure_eq_ok, Except.ok.injEq] at hr
  obtain ⟨h1, x, h2, f, h3, h4⟩ := hr
  exact ⟨x, f, h1, h2, h3, h4.symm⟩

end Sys2Proof.Machine
end

