-- ==== Sys2Proof/Laws/Groups.lean ====
section
/-! SUPPORT. The group-wise conversions read at one place: character groups of a packed string (41_string R110, R111)
and nibbles of a bit string (42_hex R120, R121). -/

namespace Sys2Proof.Machine

/-- Group `i` of a packed string is the 7 bits of its character `i`. -/
theorem slice_packChars (t : Text) (r : Bits) (i : Nat) (c : Char7) (h : t[i]? = some c) :
    slice (packChars t ++ r) (7 * i) 7 = bitsOf c.toNat 7 := by
  induction t generalizing i with
  | nil => simp at h
  | cons d t ih =>
    cases i with
    | zero =>
      simp at h; subst h
      rw [packChars_cons, List.append_assoc]; exact slice_append_first (by simp)
    | succ i =>
      rw [packChars_cons, List.append_assoc, slice_append_right (by simp)]
      simp only [bitsOf_length]
      rw [show 7 * (i + 1) - 7 = 7 * i by omega]
      exact ih i (by simpa using h)

/-- A packed string with whole zero groups after it, read group by group. -/
theorem groups7_packChars (t : Text) (k : Nat) : groups7 (packChars t ++ zeros (7 * k)) = t ++ List.replicate k 0 := by
  induction t with
  | nil =>
    induction k with
    | zero => rfl
    | succ k ih =>
      rw [packChars_nil, List.nil_append] at *
      rw [show zeros (7 * (k + 1)) = zeros 7 ++ zeros (7 * k) by rw [Nat.mul_succ, Nat.add_comm]; exact (List.replicate_append_replicate ..).symm,
        groups7_append _ _ (by simp), ih]
      rfl
  | cons c t ih => rw [packChars_cons, List.append_assoc, groups7_char, ih]; rfl

/-- Hex digit `k` spells bits `4k` to `4k + 3`. -/
theorem hexGroups_getElem? (b : Bits) (k : Nat) (h : 4 * k + 4 ≤ b.length) :
    (hexGroups b)[k]? = some (hexDigit (uint (slice b (4 * k) 4))) := by
  induction k generalizing b with
  | zero =>
    rw [← List.take_append_drop 4 b, hexGroups_append _ _ (by simp; omega)]
    simp [slice]
  | succ k ih =>
    rw [← List.take_append_drop 4 b, hexGroups_append _ _ (by simp; omega), List.getElem?_cons_succ, ih _ (by simp; omega)]
    rw [List.take_append_drop]; simp only [slice, List.drop_drop]; rw [show 4 + 4 * k = 4 * (k + 1) by omega]

/-- Bit `k` of an expansion is a bit of the digit `k / 4`. -/
theorem hexExpand_getElem? (h : Text) (k : Nat) (c : Char7) (hc : h[k / 4]? = some c) :
    (hexExpand h)[k]? = some ((hexVal c).testBit (3 - k % 4)) := by
  induction h generalizing k with
  | nil => simp at hc
  | cons d h ih =>
    rw [hexExpand_cons]
    by_cases hk : k < 4
    · rw [Nat.div_eq_of_lt hk] at hc; simp at hc; subst hc
      rw [List.getElem?_append_left (by simpa using hk), bitsOf_getElem? _ _ _ hk, Nat.mod_eq_of_lt hk]
    · rw [List.getElem?_append_right (by simp; omega)]
      simp only [bitsOf_length]
      rw [show k / 4 = (k - 4) / 4 + 1 by omega] at hc
      rw [ih (k - 4) (by simpa using hc)]
      congr 2; omega

theorem uint_lt_sixteen (b : Bits) (h : b.length = 4) : uint b < 16 := by have := uint_lt b; rw [h] at this; exact this

/-- Whole nibbles written as digits and expanded again. -/
theorem hexExpand_hexGroups (b : Bits) (h : b.length % 4 = 0) : hexExpand (hexGroups b) = b := by
  induction hn : b.length using Nat.strong_induction_on generalizing b with
  | _ n ih =>
    by_cases h4 : b.length < 4
    · have : b = [] := List.length_eq_zero_iff.mp (by omega)
      subst this; rfl
    · conv_lhs => rw [← List.take_append_drop 4 b]
      have hl : (b.take 4).length = 4 := by simp; omega
      rw [hexGroups_append _ _ hl, hexExpand_cons, hexVal_hexDigit (uint_lt_sixteen _ hl),
        ih _ (by simp; omega) (b.drop 4) (by simp; omega) rfl]
      have e := bitsOf_uint (b.take 4)
      rw [hl] at e
      rw [e]
      exact List.take_append_drop 4 b

/-- The digits written are hex digits. -/
theorem isHex_hexGroups (b : Bits) : isHex (hexGroups b) = true := by
  induction hn : b.length using Nat.strong_induction_on generalizing b with
  | _ n ih =>
    by_cases h4 : b.length < 4
    · rw [hexGroups_short h4]; rfl
    · rw [← List.take_append_drop 4 b]
      have hl : (b.take 4).length = 4 := by simp; omega
      rw [hexGroups_append _ _ hl]
      have := ih _ (by simp; omega) (b.drop 4) rfl
      simp only [isHex, List.all_cons, Bool.and_eq_true] at *
      exact ⟨isHexDigit_hexDigit (uint_lt_sixteen _ hl), this⟩

/-- Hex digits expanded and written again. -/
theorem hexGroups_hexExpand (h : Text) (hh : isHex h = true) : hexGroups (hexExpand h) = h := by
  induction h with
  | nil => rfl
  | cons c h ih =>
    simp only [isHex, List.all_cons, Bool.and_eq_true] at hh
    rw [hexExpand_cons, hexGroups_append _ _ (by simp), ih hh.2, uint_bitsOf_of_lt (hexVal_lt hh.1), hexDigit_hexVal hh.1]

end Sys2Proof.Machine
end

