-- ==== Sys2Proof/Laws/Memory.lean ====
section
/-! SUPPORT. Every operation on the frame buffer keeps its canonical form, `Memory.wf` (10_state R21, R36), and the
reset buffer has it. -/

namespace Sys2Proof.Machine

theorem memory_wf_iff {cap : Nat} {m : Memory} : Memory.wf cap m = true ↔ m.length ≤ cap := by simp [Memory.wf]

theorem reset_memory_wf : Memory.wf State.reset.cfg.fbcap State.reset.fb = true := by decide

theorem empty_memory_wf (cap : Nat) : Memory.wf cap [] = true := by simp [Memory.wf]

/-- MemWrite keeps the form: `tryAppend` answers only where the result fits (20_memory R45). -/
theorem tryAppend_memory_wf {s t : State} {b : Bits} (h : s.tryAppend b = .ok t) : Memory.wf t.cfg.fbcap t.fb = true := by
  obtain ⟨h1, rfl⟩ := tryAppend_eq_ok.mp h
  exact memory_wf_iff.mpr (by simpa using h1)

/-- Replacing FB whole by no more than FBCAP bits keeps the form. -/
theorem loadFrame_memory_wf {s : State} {x : Bits} {r : Nat} (h : x.length ≤ s.cfg.fbcap) :
    Memory.wf (s.loadFrame x r).cfg.fbcap (s.loadFrame x r).fb = true :=
  memory_wf_iff.mpr h

/-- A read of the buffer has the length asked for (20_memory R44). -/
theorem memRead_length {s : State} {a n : Nat} (h : a + n ≤ s.fb.length) : (s.memRead a n).length = n :=
  slice_length h

end Sys2Proof.Machine
end

