-- ==== Sys2Proof/Laws/PerInstr.lean ====
section
/-! SUPPORT. Per-instruction statements. Family RowMatch: the word of a command is legal for its own row of the opcode
map, `W AND mask = match` (30_encoding R62, R63). -/

namespace Sys2Proof.Laws.RowMatch

/-- The encoded word matches the mask and pattern of its row. -/
def Statement (i : Instr) : Prop := encode i &&& i.opcode.mask = i.opcode.pattern

/-- Field by field: a word whose masked fields are all 0 but for the opcode byte matches the pattern. -/
theorem of_fields {o : Opcode} {op : Byte} {ta ta' tb tb' : BitVec 2} {flt flt' : BitVec 3} {fam fam' : BitVec 1}
    {n n' imm imm' : Byte} (hm : o.mask = wordOf 0xFF ta' tb' flt' fam' n' imm')
    (hp : o.pattern = wordOf op 0 0 0 0 0 0) (h : ta &&& ta' = 0 ∧ tb &&& tb' = 0 ∧ flt &&& flt' = 0 ∧
      fam &&& fam' = 0 ∧ n &&& n' = 0 ∧ imm &&& imm' = 0) :
    wordOf op ta tb flt fam n imm &&& o.mask = o.pattern := by
  obtain ⟨h1, h2, h3, h4, h5, h6⟩ := h
  have ho : op &&& 0xFF = op := by
    have : (0xFF : Byte) = BitVec.allOnes 8 := rfl
    rw [this, BitVec.and_allOnes]
  rw [hm, hp, wordOf_and, h1, h2, h3, h4, h5, h6, ho]

theorem rst : Statement .rst := (by decide : encode .rst &&& Opcode.mask .rst = Opcode.pattern .rst)
theorem clr : Statement .clr := (by decide : encode .clr &&& Opcode.mask .clr = Opcode.pattern .clr)
theorem rew : Statement .rew := (by decide : encode .rew &&& Opcode.mask .rew = Opcode.pattern .rew)
theorem enci (ta : TReg) (n : Nat) : Statement (.enci ta n) :=
  of_fields (o := .enci) (op := Opcode.byte .enci) (ta' := 0) (tb' := 3) (flt' := 7) (fam' := 1) (n' := 0) (imm' := 0xFF) (by decide) (by decide) (by simp)
theorem encii (imm n : Nat) : Statement (.encii imm n) :=
  of_fields (o := .encii) (op := Opcode.byte .encii) (ta' := 3) (tb' := 3) (flt' := 7) (fam' := 1) (n' := 0) (imm' := 0) (by decide) (by decide) (by simp)
theorem deci (ta : TReg) (n : Nat) : Statement (.deci ta n) :=
  of_fields (o := .deci) (op := Opcode.byte .deci) (ta' := 0) (tb' := 3) (flt' := 7) (fam' := 1) (n' := 0) (imm' := 0xFF) (by decide) (by decide) (by simp)
theorem encs (ta : TReg) (n : Nat) : Statement (.encs ta n) :=
  of_fields (o := .encs) (op := Opcode.byte .encs) (ta' := 0) (tb' := 3) (flt' := 7) (fam' := 1) (n' := 0) (imm' := 0xFF) (by decide) (by decide) (by simp)
theorem decs (ta : TReg) (n : Nat) : Statement (.decs ta n) :=
  of_fields (o := .decs) (op := Opcode.byte .decs) (ta' := 0) (tb' := 3) (flt' := 7) (fam' := 1) (n' := 0) (imm' := 0xFF) (by decide) (by decide) (by simp)
theorem b2h (ta : TReg) : Statement (.b2h ta) :=
  of_fields (o := .b2h) (op := Opcode.byte .b2h) (ta' := 0) (tb' := 3) (flt' := 7) (fam' := 1) (n' := 0xFF) (imm' := 0xFF) (by decide) (by decide) (by simp)
theorem h2b (ta : TReg) (n : Nat) : Statement (.h2b ta n) :=
  of_fields (o := .h2b) (op := Opcode.byte .h2b) (ta' := 0) (tb' := 3) (flt' := 7) (fam' := 1) (n' := 0) (imm' := 0xFF) (by decide) (by decide) (by simp)
theorem encp (fam : Family) (ta tb : TReg) : Statement (.encp fam ta tb) :=
  of_fields (o := .encp) (op := Opcode.byte .encp) (ta' := 0) (tb' := 0) (flt' := 7) (fam' := 0) (n' := 0xFF) (imm' := 0xFF) (by decide) (by decide) (by simp)
theorem decp (fam : Family) (ta tb : TReg) : Statement (.decp fam ta tb) :=
  of_fields (o := .decp) (op := Opcode.byte .decp) (ta' := 0) (tb' := 0) (flt' := 7) (fam' := 0) (n' := 0xFF) (imm' := 0xFF) (by decide) (by decide) (by simp)
theorem chk (ta tb : TReg) : Statement (.chk ta tb) :=
  of_fields (o := .chk) (op := Opcode.byte .chk) (ta' := 0) (tb' := 0) (flt' := 7) (fam' := 1) (n' := 0xFF) (imm' := 0xFF) (by decide) (by decide) (by simp)
theorem esg96 (flt : BitVec 3) : Statement (.esg96 flt) :=
  of_fields (o := .esg96) (op := Opcode.byte .esg96) (ta' := 3) (tb' := 3) (flt' := 0) (fam' := 1) (n' := 0xFF) (imm' := 0xFF) (by decide) (by decide) (by simp)
theorem esg198 (flt : BitVec 3) : Statement (.esg198 flt) :=
  of_fields (o := .esg198) (op := Opcode.byte .esg198) (ta' := 3) (tb' := 3) (flt' := 0) (fam' := 1) (n' := 0xFF) (imm' := 0xFF) (by decide) (by decide) (by simp)
theorem ess96 (flt : BitVec 3) : Statement (.ess96 flt) :=
  of_fields (o := .ess96) (op := Opcode.byte .ess96) (ta' := 3) (tb' := 3) (flt' := 0) (fam' := 1) (n' := 0xFF) (imm' := 0xFF) (by decide) (by decide) (by simp)
theorem dsg : Statement .dsg := (by decide : encode .dsg &&& Opcode.mask .dsg = Opcode.pattern .dsg)
theorem dss : Statement .dss := (by decide : encode .dss &&& Opcode.mask .dss = Opcode.pattern .dss)

end Sys2Proof.Laws.RowMatch
end

