-- ==== Sys2Proof/Machine/Assembler.lean ====
section
/-! DEFINITION. Assembler text (30_encoding R67): a command as one line, and a line read back. It is no part of a step:
the host presents words (R60); "The source has no assembler" (R67; log entry 20). -/

namespace Sys2Proof

/-! ### Writing a line -/

/-- "Text registers are written T0 to T3". -/
def TReg.asm : TReg → String
  | .t0 => "T0"
  | .t1 => "T1"
  | .t2 => "T2"
  | .t3 => "T3"

/-- "families are written SGTIN (0) and SSCC (1)". -/
def Family.asm : Family → String
  | .sgtin => "SGTIN"
  | .sscc => "SSCC"

/-- The operands of R67, separated by commas. -/
def Instr.operandTexts : Instr → List String
  | .rst => []
  | .clr => []
  | .rew => []
  | .enci ta n => [ta.asm, n.repr]
  | .encii imm n => [imm.repr, n.repr]
  | .deci ta n => [ta.asm, n.repr]
  | .encs ta n => [ta.asm, n.repr]
  | .decs ta n => [ta.asm, n.repr]
  | .b2h ta => [ta.asm]
  | .h2b ta n => [ta.asm, n.repr]
  | .encp fam ta tb => [fam.asm, ta.asm, tb.asm]
  | .decp fam ta tb => [fam.asm, ta.asm, tb.asm]
  | .chk ta tb => [ta.asm, tb.asm]
  | .esg96 flt => [flt.toNat.repr]
  | .esg198 flt => [flt.toNat.repr]
  | .ess96 flt => [flt.toNat.repr]
  | .dsg => []
  | .dss => []

/-- One line of assembler for a command (R67); numbers in decimal. -/
def Instr.asm (i : Instr) : String :=
  match i.operandTexts with
  | [] => i.opcode.mnemonic
  | os => i.opcode.mnemonic ++ " " ++ ", ".intercalate os

/-! ### Reading a line -/

/-- The value of a digit of the given base, 10 or 16. -/
def digitOf (base : Nat) (c : Char) : Option Nat :=
  let d := if '0' ≤ c ∧ c ≤ '9' then c.toNat - 48
    else if 'A' ≤ c ∧ c ≤ 'F' then c.toNat - 55
    else if 'a' ≤ c ∧ c ≤ 'f' then c.toNat - 87 else base
  if d < base then some d else none

/-- The number a run of digits spells, from the value `v` of the digits already read. -/
def readDigits (base : Nat) : Nat → List Char → Option Nat
  | v, [] => some v
  | v, c :: cs =>
    match digitOf base c with
    | some d => readDigits base (base * v + d) cs
    | none => none

/-- "Numbers are decimal or 0x hex" (R67). -/
def readNat : List Char → Option Nat
  | [] => none
  | '0' :: 'x' :: c :: cs => readDigits 16 0 (c :: cs)
  | cs => readDigits 10 0 cs

/-- A register name. -/
def readReg (cs : List Char) : Option TReg := [TReg.t0, .t1, .t2, .t3].find? fun r => r.asm.toList == cs

/-- A family name. -/
def readFamily (cs : List Char) : Option Family := [Family.sgtin, .sscc].find? fun f => f.asm.toList == cs

/-- A filter, 0 to 7. -/
def readFlt (cs : List Char) : Option (BitVec 3) :=
  (readNat cs).bind fun v => if v < 8 then some (BitVec.ofNat 3 v) else none

/-- The operands of a line, separated by commas. DESIGN CHOICE (log entry 20): R67 is silent on blanks, and here a blank
counts nowhere after the mnemonic, around an operand or inside one. -/
def splitOperands : List Char → List (List Char)
  | [] => [[]]
  | ',' :: cs => [] :: splitOperands cs
  | ' ' :: cs => splitOperands cs
  | c :: cs =>
    match splitOperands cs with
    | [] => [[c]]
    | x :: xs => (c :: x) :: xs

/-- The command of a mnemonic with the given operands (the table of R67). -/
def readOperands (o : Opcode) (ops : List (List Char)) : Option Instr :=
  match o, ops with
  | .rst, [[]] => some .rst
  | .clr, [[]] => some .clr
  | .rew, [[]] => some .rew
  | .enci, [a, n] => do return .enci (← readReg a) (← readNat n)
  | .encii, [v, n] => do return .encii (← readNat v) (← readNat n)
  | .deci, [a, n] => do return .deci (← readReg a) (← readNat n)
  | .encs, [a, n] => do return .encs (← readReg a) (← readNat n)
  | .decs, [a, n] => do return .decs (← readReg a) (← readNat n)
  | .b2h, [a] => do return .b2h (← readReg a)
  | .h2b, [a, n] => do return .h2b (← readReg a) (← readNat n)
  | .encp, [f, a, b] => do return .encp (← readFamily f) (← readReg a) (← readReg b)
  | .decp, [f, a, b] => do return .decp (← readFamily f) (← readReg a) (← readReg b)
  | .chk, [a, b] => do return .chk (← readReg a) (← readReg b)
  | .esg96, [f] => do return .esg96 (← readFlt f)
  | .esg198, [f] => do return .esg198 (← readFlt f)
  | .ess96, [f] => do return .ess96 (← readFlt f)
  | .dsg, [[]] => some .dsg
  | .dss, [[]] => some .dss
  | _, _ => none

/-- The command one line of assembler stands for (R67): its mnemonic up to the first blank, its operands after it;
none where no word spells it (R62). -/
def readAsm (line : String) : Option Instr := do
  let cs := line.toList
  let o ← Opcode.all.find? fun o => o.mnemonic.toList == cs.takeWhile (· != ' ')
  let i ← readOperands o (splitOperands (cs.dropWhile (· != ' ')))
  if i.wellFormed then some i else none

end Sys2Proof
end

