-- ==== Sys2Proof/Tests/Slice0.lean ====
section
/-! SUPPORT. The model's own tests. Expected values come from the spec's worked examples and derived vectors (95_test_vectors
S1 to S9, V1 to V7) and from the field layout of 30_encoding R61; `witness_<Name>` meets the hypotheses of the
obligation of that name, clause by clause. -/

namespace Sys2Proof.Tests

open Sys2Proof.Machine Sys2Proof.Spec

/-- Bits from their written form, first bit left (00_scope R6). -/
def bits (s : String) : Bits := s.toList.map fun c => c == '1'

/-- The result is a next state with the property. -/
def after (r : Result) (p : State → Bool) : Bool :=
  match r with
  | .next t => p t
  | .fault _ => false
  | .refused _ => false

/-- After reset, with `fb` in FB. -/
def holding (fb : Bits) : State := { State.reset with fb := fb }

/-- After reset, with a string in T2. -/
def text (s : String) : State := loaded "" "" s ""

/-- The operands of S1. -/
def trade : State := loaded "0614141" "812345" "6789" ""

/-- The operands of S4. -/
def logistic : State := loaded "0614141" "1234567890" "" ""

/-- The state of P3 after its step 4, with the given host actions to come. -/
def stopped (as : List HostAction) : State :=
  { loaded "0614141" "812345" "" "" with fb := bits "00110000", st := 0x1105, pending := as }

/-- A configuration R130 allows whose prefix field of partition 5 is too narrow for 9999999. -/
def narrow : Config := { Config.default with ptSgtin := defaultSgtin.set 5 ⟨5, 23, 7, 21, 6⟩ }

/-- See `narrow`, for the SSCC family. -/
def narrowSscc : Config := { Config.default with ptSscc := defaultSscc.set 5 ⟨5, 23, 7, 35, 10⟩ }

/-! ### Well-formedness: each check refuses an ill-formed term -/

theorem test_wf_enci : (Instr.enci .t0 256).wellFormed = false := by decide
theorem test_wf_encii_imm : (Instr.encii 256 8).wellFormed = false := by decide
theorem test_wf_encii_n : (Instr.encii 0 256).wellFormed = false := by decide
theorem test_wf_deci : (Instr.deci .t0 256).wellFormed = false := by decide
theorem test_wf_encs : (Instr.encs .t0 256).wellFormed = false := by decide
theorem test_wf_decs : (Instr.decs .t0 256).wellFormed = false := by decide
theorem test_wf_h2b : (Instr.h2b .t0 256).wellFormed = false := by decide
theorem test_wf_decp : (Instr.decp .sscc .t1 .t1).wellFormed = false := by decide
theorem test_config_default : Config.default.wf = true := by decide
theorem test_config_capacity : ({ Config.default with fbcap := 256, txcap := 80 } : Config).wf = false := by decide
theorem test_config_rows : ({ Config.default with ptSscc := defaultSgtin } : Config).wf = false := by decide

/-! ### Decoding: words written from R61 and R63 (examples of the command rules, V7) -/

theorem test_decode_rst : decode 0x01000000 = .ok .rst := by decide
theorem test_decode_clr : decode 0x02000000 = .ok .clr := by decide
theorem test_decode_rew : decode 0x03000000 = .ok .rew := by decide
theorem test_decode_enci : decode 0b00010000_10_00_000_0_00100110_00000000 = .ok (.enci .t2 38) := by decide
theorem test_decode_encii : decode 0b00010001_00_00_000_0_00000011_00000111 = .ok (.encii 7 3) := by decide
theorem test_decode_deci : decode 0b00010010_10_00_000_0_00001000_00000000 = .ok (.deci .t2 8) := by decide
theorem test_decode_encs : decode 0b00011000_00_00_000_0_00001110_00000000 = .ok (.encs .t0 14) := by decide
theorem test_decode_decs : decode 0b00011001_01_00_000_0_00001110_00000000 = .ok (.decs .t1 14) := by decide
theorem test_decode_b2h : decode 0b00100000_11_00_000_0_00000000_00000000 = .ok (.b2h .t3) := by decide
theorem test_decode_h2b : decode 0b00100001_11_00_000_0_11000110_00000000 = .ok (.h2b .t3 198) := by decide
theorem test_decode_encp : decode 0b00101000_00_01_000_1_00000000_00000000 = .ok (.encp .sscc .t0 .t1) := by decide
theorem test_decode_decp : decode 0b00101001_10_11_000_0_00000000_00000000 = .ok (.decp .sgtin .t2 .t3) := by decide
theorem test_decode_chk : decode 0b00110000_10_11_000_0_00000000_00000000 = .ok (.chk .t2 .t3) := by decide
theorem test_decode_esg96 : decode 0b01000000_00_00_110_0_00000000_00000000 = .ok (.esg96 6) := by decide
theorem test_decode_esg198 : decode 0b01000001_00_00_001_0_00000000_00000000 = .ok (.esg198 1) := by decide
theorem test_decode_ess96 : decode 0b01000010_00_00_010_0_00000000_00000000 = .ok (.ess96 2) := by decide
theorem test_decode_dsg : decode 0x48000000 = .ok .dsg := by decide
theorem test_decode_dss : decode 0x49000000 = .ok .dss := by decide

/-- The illegal words of V7. -/
theorem test_decode_illegal :
    [0xFF000000, 0x04000000, 0x02800000, 0x10800601, 0x20C00100, 0x40010000, 0x48000001].all
      (fun w => (decode w).toOption == none) = true := by decide

theorem test_decodeTableWord : decodeTableWord 32 0x12800300 = some (.deci .t2 3) := by decide
theorem test_encode_chk : encode (.chk .t2 .t2) = 0x30A00000 := by decide
theorem test_withFetchWord : after (step (State.reset.withFetchWord 32 0x11000307)) (fun t => t.fb == bits "111") = true := by
  decide
theorem test_illegal_word : after (step (State.reset.withFetchWord 32 0x29500000)) (fun t => t.st == 0x290F) = true := by
  decide

/-! ### Assembler lines (R67) -/

theorem test_read_enci : readAsm "ENCI T2, 38" = some (.enci .t2 38) := by decide
theorem test_read_hex : readAsm "ENCII 0x30, 8" = some (.encii 48 8) := by decide
theorem test_read_decp_same : readAsm "DECP SGTIN, T1, T1" = none := by decide
theorem test_write_encp : (Instr.encp .sscc .t0 .t1).operandTexts = ["SSCC", "T0", "T1"] := by decide

/-! ### Commands, one step each -/

theorem test_rst : after (exec .rst (stopped [])) (fun t => t.fb == [] && t.t0 == [] && t.st == 0) = true := by decide
theorem test_clr : after (exec .clr (stopped [])) (fun t => t.fb == [] && t.t0 == ascii "0614141" && t.st == 0x1105) = true := by
  decide
theorem test_rew : after (exec .rew { holding (bits "0110") with rc := 4 }) (fun t => t.rc == 0 && t.fb == bits "0110") = true := by
  decide

/-- V1.3 -/
theorem test_enci_leading_zeros : after (exec (.enci .t2 3) (text "0007")) (fun t => t.fb == bits "111") = true := by decide
theorem test_enci_nonnum : after (exec (.enci .t2 8) (text "12a")) (fun t => t.st == 0x1015 && t.fb == []) = true := by decide

set_option maxRecDepth 4000 in
/-- V1.4, S5 -/
theorem test_encii_full : after (exec (.encii 0 9) (holding (zeros 190))) (fun t => t.st == 0x1119 && t.fb.length == 190) = true := by
  decide
theorem test_encii_nofit : after (exec (.encii 8 3) State.reset) (fun t => t.st == 0x1105) = true := by decide

/-- V1.5 -/
theorem test_deci : after (exec (.deci .t1 6) (holding (bits "000101"))) (fun t => t.t1 == ascii "5" && t.rc == 6) = true := by
  decide
theorem test_deci_empty : after (exec (.deci .t1 0) (holding (bits "000101"))) (fun t => t.st == 0x121A && t.rc == 0) = true := by
  decide

/-- V2.1 -/
theorem test_encs : after (exec (.encs .t2 15) (text "ab")) (fun t => t.fb == bits "110000111000100") = true := by decide
theorem test_encs_long : after (exec (.encs .t2 13) (text "ab")) (fun t => t.st == 0x1809) = true := by decide

/-- V2.2: the zero group in the middle is dropped and decoding goes on. -/
theorem test_decs : after (exec (.decs .t1 21) (holding (bits "110000100000001100010")))
    (fun t => t.t1 == ascii "ab" && t.rc == 21) = true := by decide
theorem test_decs_group : after (exec (.decs .t1 15) (holding (zeros 15))) (fun t => t.st == 0x191E) = true := by decide

/-- V3.1 -/
theorem test_b2h : after (exec (.b2h .t3) (holding (bits "00110000001101"))) (fun t => t.t3 == ascii "3034") = true := by decide

/-- V3.3 -/
theorem test_h2b : after (exec (.h2b .t2 14) (text "C38B")) (fun t => t.fb == bits "11000011100010" && t.rc == 0) = true := by
  decide
theorem test_h2b_lower : after (exec (.h2b .t2 8) (text "3f")) (fun t => t.st == 0x2112) = true := by decide

/-- V4.1, row L = 7 -/
theorem test_encp : after (exec (.encp .sgtin .t0 .t1) (loaded "1234567" "987654" "" ""))
    (fun t => t.fb == bits "10100010010110101101000011111110001001000000110") = true := by decide
theorem test_encp_length : after (exec (.encp .sgtin .t0 .t1) (loaded "" "1" "" "")) (fun t => t.st == 0x280D) = true := by decide

/-- V4.4 -/
theorem test_decp : after (exec (.decp .sgtin .t2 .t3) (holding (bits "000" ++ zeros 40 ++ bits "1001")))
    (fun t => t.t2 == ascii "000000000000" && t.t3 == ascii "9" && t.rc == 47) = true := by decide
theorem test_decp_wide : after (exec (.decp .sgtin .t2 .t3) (holding (bits "101" ++ zeros 24 ++ List.replicate 20 true)))
    (fun t => t.st == 0x2916 && t.rc == 0) = true := by decide

/-- S7, V5 -/
theorem test_chk : after (exec (.chk .t2 .t2) (text "629104150021")) (fun t => t.t2 == ascii "3") = true := by decide
theorem test_chk_empty : after (exec (.chk .t0 .t1) State.reset) (fun t => t.t1 == ascii "0") = true := by decide

/-- S8: the last serial that fits, as its 38 bits. -/
theorem test_esg96 : after (exec (.esg96 1) (loaded "0614141" "812345" "274877906943" ""))
    (fun t => slice t.fb 58 38 == List.replicate 38 true && slice t.fb 8 3 == bits "001") = true := by decide
theorem test_esg96_serial : after (exec (.esg96 1) (loaded "0614141" "812345" "274877906944" "")) (fun t => t.st == 0x4011) = true := by
  decide

set_option maxRecDepth 4000 in
/-- S8, V6.3 -/
theorem test_esg198 : after (exec (.esg198 1) (loaded "0614141" "812345" "001" ""))
    (fun t => slice t.fb 58 21 == bits "011000001100000110001" && t.fb.length == 198) = true := by decide
theorem test_esg198_length : after (exec (.esg198 1) (loaded "0614141" "12345" "1" "")) (fun t => t.st == 0x410B) = true := by decide

/-- V6.4 -/
theorem test_ess96 : after (exec (.ess96 2) logistic)
    (fun t => slice t.fb 8 6 == bits "010101" && slice t.fb 38 34 == bits "0001001001100101100000001011010010") = true := by decide
theorem test_ess96_numeric_first : after (exec (.ess96 2) (loaded "06141" "12345678x0" "" "")) (fun t => t.st == 0x4215) = true := by
  decide

/-- V6.7 -/
theorem test_dsg : after (exec .dsg (loaded "" "" "" "303400000000000000000000"))
    (fun t => t.t0 == ascii "0000000" && t.t1 == ascii "000000" && t.t2 == ascii "0" && t.flt == 1 && t.rc == 96) = true := by decide
theorem test_dsg_header_first : after (exec .dsg (loaded "" "" "" "3G34257BF7194E4000001A85")) (fun t => t.st == 0x480A) = true := by
  decide

/-- V6.8 -/
theorem test_dss : after (exec .dss (loaded "" "" "" "31F4257BF4499602D2FFFFFF"))
    (fun t => t.t1 == ascii "1234567890" && t.flt == 7 && t.hdr == 0x31 && t.rc == 72) = true := by decide
theorem test_dss_hex_first : after (exec .dss (loaded "" "" "" "311425 7BF")) (fun t => t.st == 0x4912) = true := by decide

/-! ### Host actions and the freeze (P3) -/

theorem test_frozen_load : after (step (stopped [.loadT .t2 (ascii "6789")])) (fun t => t.t2 == []) = true := by decide
theorem test_frozen_false_rst : after (step (stopped [.command 0x01000100])) (fun t => t.st == 0x1105) = true := by decide
theorem test_frozen_rst : after (step (stopped [.command 0x01000000])) (fun t => t.st == 0 && t.fb == []) = true := by decide
theorem test_read_status : after (step (stopped [.readStatus])) (fun t => t.reply == some (.status 0x1105 0 0)) = true := by decide

/-- R236: `t_wlen` 61 exceeds TXCAP 60, though `t_wdata` has 60 characters. -/
theorem test_port_load_refused : portLoad .t0 61 (List.replicate 60 65) State.reset = .refused .hostTextTooLong := rfl
theorem test_port_load : after (portLoad .t1 2 (ascii "ab" ++ List.replicate 58 0) State.reset) (fun t => t.t1 == ascii "ab") = true := by
  decide

/-- S1, S4: the keys the host composes, and R170 -/
theorem test_gtin14 : gtin14 (ascii "0614141") (ascii "812345") = ascii "80614141123458" := by decide
theorem test_sscc18 : sscc18 (ascii "0614141") (ascii "1234567890") = ascii "106141412345678908" := by decide
theorem test_fromGTIN : fromGTIN (ascii "80614141123458") 7 = some (ascii "0614141", ascii "812345") := by decide
theorem test_selectEncode : selectEncode (ascii "001") 1 = .esg96 1 ∧ selectEncode (ascii "") 1 = .esg198 1 := by decide

/-! ### Witnesses: the hypotheses of the statements can be met -/

theorem witness_StatusFields : 255 < 256 ∧ 15 < 16 ∧ 3 < 4 := by decide

theorem witness_AllOrNothing :
    (∃ t, exec .rst (stopped []) = .next t) ∧ (∃ t, exec .rew State.reset = .next t ∧ t.st = State.reset.st) ∧
    (∃ t, exec (.encii 8 3) State.reset = .next t ∧ t.st ≠ State.reset.st) :=
  ⟨⟨_, rfl⟩, ⟨_, rfl, rfl⟩, ⟨_, rfl, by decide⟩⟩

theorem witness_WritesOnlyItsColumns :
    (∃ t, exec .rew (stopped []) = .next t ∧ writesFB .rew = false) ∧
    (∃ t, exec (.b2h .t3) (stopped []) = .next t ∧ writesRC (.b2h .t3) = false) ∧
    (∃ t, exec (.chk .t0 .t1) (stopped []) = .next t ∧ TReg.t0 ∉ writesT (.chk .t0 .t1)) ∧
    (∃ t, exec .clr (stopped []) = .next t ∧ writesInfo .clr = false) :=
  ⟨⟨_, rfl, rfl⟩, ⟨_, rfl, rfl⟩, ⟨_, rfl, by decide⟩, ⟨_, rfl, rfl⟩⟩

theorem witness_StepRunsTheDecodedCommand :
    (stErr (stopped [.command 0x28100000]).st ≠ 0 ∧ (0x28100000 : Word) ≠ 0x01000000) ∧
    (stErr ({ trade with pending := [.command 0x31000000] } : State).st = 0 ∧ decode 0x31000000 = .error .unknownOpcode) ∧
    (stErr ({ trade with pending := [.command 0x28100000] } : State).st = 0 ∧ decode 0x28100000 = .ok (.encp .sgtin .t0 .t1)) ∧
    (stErr (stopped [.command 0x01000000]).st ≠ 0 ∧ decode 0x01000000 = .ok .rst) := by decide

theorem witness_HostActions :
    (List.replicate 60 65 : Text).length ≤ State.reset.cfg.txcap ∧ State.reset.cfg.txcap < (List.replicate 61 65 : Text).length ∧
    (stopped [.loadT .t0 (List.replicate 60 65)]).pending = .loadT .t0 (List.replicate 60 65) :: [] ∧
    (stopped [.loadT .t0 (List.replicate 61 65)]).pending = .loadT .t0 (List.replicate 61 65) :: [] ∧
    (stopped [.readT .t3]).pending = .readT .t3 :: [] ∧ (stopped [.readFB]).pending = .readFB :: [] ∧
    (stopped [.readStatus]).pending = .readStatus :: [] ∧ (stopped [.hardwareReset]).pending = .hardwareReset :: [] ∧
    State.reset.pending = [] := by decide

theorem witness_RstActsAlsoWhenFrozen :
    (stopped [.command 0x01000000]).pending = .command 0x01000000 :: [] ∧ (0x01000001 : Word).toNat / 2 ^ 24 = 1 ∧
    (0x01000001 : Word) ≠ 0x01000000 := by decide

theorem witness_FreezeHoldsThroughRun :
    stErr (stopped [.command 0x28100000, .loadT .t2 (ascii "6789")]).st ≠ 0 ∧
    (∀ a ∈ (stopped [.command 0x28100000, .loadT .t2 (ascii "6789")]).pending, a.clears = false) ∧
    ∃ t, Host.Core.run core 2 (stopped [.command 0x28100000, .loadT .t2 (ascii "6789")]) = .next t :=
  ⟨by decide, by decide, ⟨_, rfl⟩⟩

theorem witness_SucceededRunNeverRaised :
    (∀ a ∈ (State.reset.withFetchWord 32 0x11000307).pending, a.clears = false) ∧
    ∃ t : State, Host.Core.run core 1 (State.reset.withFetchWord 32 0x11000307) = .next t ∧ t.succeeded :=
  ⟨by decide, ⟨_, rfl, by unfold State.succeeded; decide⟩⟩

theorem witness_StepKeepsInvariant :
    (stopped [.command 0x01000000]).Inv ∧ ∃ t, step (stopped [.command 0x01000000]) = .next t :=
  ⟨⟨by decide, by decide, by decide, fun i => by cases i <;> decide, by unfold statusInv; decide⟩, ⟨_, rfl⟩⟩

theorem witness_StepKeepsLegalStatus :
    (LegalStatus State.reset.st ∧ ∃ t, step State.reset = .next t) ∧
    LegalStatus (stopped [.readFB]).st ∧ ∃ t, step (stopped [.readFB]) = .next t :=
  ⟨⟨.inl rfl, ⟨_, rfl⟩⟩, .inr ⟨(.eNofit, 1, 1), by decide, 0x11, by decide, by decide⟩, ⟨_, rfl⟩⟩

theorem witness_ConfigurationNeverWritten : ∃ t, step (stopped [.hardwareReset]) = .next t := ⟨_, rfl⟩

theorem witness_LegalWordsAreTheOpcodeMap :
    decode 0x28110000 = .ok (.encp .sscc .t0 .t1) ∧
    (("DSS", 0x49000000, 0xFFFFFFFF) ∈ opcodeMap ∧ (0x49000000 : Word) &&& 0xFFFFFFFF = 0x49000000) ∧
    (("DECP", 0x29000000, 0xFF0EFFFF) ∈ opcodeMap ∧ (0x29B00000 : Word) &&& 0xFF0EFFFF = 0x29000000 ∧
      registersDiffer 0x29B00000) := by unfold registersDiffer; decide

theorem witness_EncodedWordIsTheFieldSum : (Instr.encii 255 255).wellFormed = true := by decide
theorem witness_DecodeEncodeRoundTrip : (Instr.decp .sscc .t3 .t0).wellFormed = true := by decide
theorem witness_EncodeDecodeRoundTrip : decode 0x10802600 = .ok (.enci .t2 38) := by decide

/-- `k` zero bits in FB and a string in T2. -/
def filled (k : Nat) (s : String) : State := { text s with fb := zeros k }

set_option maxRecDepth 4000 in
theorem witness_EnciAppendsNumber :
    ¬ Numeral ((text "").getT .t2) ∧ (Numeral ((text "256").getT .t2) ∧ 2 ^ 8 ≤ intValue ((text "256").getT .t2)) ∧
    (Numeral ((filled 191 "255").getT .t2) ∧ intValue ((filled 191 "255").getT .t2) < 2 ^ 8 ∧
      (filled 191 "255").cfg.fbcap < (filled 191 "255").fb.length + 8) ∧
    (Numeral ((filled 190 "255").getT .t2) ∧ intValue ((filled 190 "255").getT .t2) < 2 ^ 8 ∧
      (filled 190 "255").fb.length + 8 ≤ (filled 190 "255").cfg.fbcap) := by decide

set_option maxRecDepth 4000 in
theorem witness_EnciiAppendsImmediate :
    2 ^ 3 ≤ 8 ∧ (7 < 2 ^ 3 ∧ (filled 196 "").cfg.fbcap < (filled 196 "").fb.length + 3) ∧
    (7 < 2 ^ 3 ∧ (filled 195 "").fb.length + 3 ≤ (filled 195 "").cfg.fbcap) := by decide

theorem witness_DeciReadsNumber :
    0 = 0 ∧ (1 ≤ 7 ∧ (filled 6 "").fb.length < (filled 6 "").rc + 7) ∧ (1 ≤ 6 ∧ (filled 6 "").rc + 6 ≤ (filled 6 "").fb.length) := by
  decide

theorem witness_IntegerRoundTrips : (7 < 2 ^ 3 ∧ 1 ≤ 3) ∧ 2 ^ 3 ≤ 8 ∧ 1 ≤ [false].length := by decide

theorem witness_MixedWidthReadsAgree :
    1 ≤ 3 ∧ 1 ≤ 4 ∧ TReg.t0 ≠ TReg.t1 ∧ (filled 7 "").rc + 3 + 4 ≤ (filled 7 "").fb.length := by decide

set_option maxRecDepth 4000 in
theorem witness_EncsPacksString :
    13 / 7 < ((filled 0 "ab").getT .t2).length ∧
    (((filled 185 "ab").getT .t2).length ≤ 14 / 7 ∧ (filled 185 "ab").cfg.fbcap < (filled 185 "ab").fb.length + 14) ∧
    (((filled 184 "ab").getT .t2).length ≤ 14 / 7 ∧ (filled 184 "ab").fb.length + 14 ≤ (filled 184 "ab").cfg.fbcap) := by decide

theorem witness_DecsUnpacksString :
    15 % 7 ≠ 0 ∧ (14 % 7 = 0 ∧ (filled 13 "").fb.length < (filled 13 "").rc + 14) ∧
    (14 % 7 = 0 ∧ (filled 14 "").rc + 14 ≤ (filled 14 "").fb.length) := by decide

theorem witness_StringRoundTrip :
    (14 % 7 = 0 ∧ (ascii "ab").length ≤ 14 / 7 ∧ ∀ c ∈ ascii "ab", c ≠ 0) ∧
    (21 % 7 = 0 ∧ ([97, 0, 98] : Text).length ≤ 21 / 7 ∧ ∃ c ∈ ([97, 0, 98] : Text), c = 0) := by decide

theorem witness_H2bLoadsBuffer :
    ¬ HexText ((text "3f").getT .t2) ∧ (HexText ((text "30").getT .t2) ∧ 4 * ((text "30").getT .t2).length < 9) ∧
    (HexText ((text "").getT .t2) ∧ (text "").cfg.fbcap < 199) ∧
    (HexText ((text "30").getT .t2) ∧ 8 ≤ (text "30").cfg.fbcap ∧ 8 ≤ 4 * ((text "30").getT .t2).length) := by decide

theorem witness_HexRoundTrips :
    (HexText (ascii "C388") ∧ (ascii "C388").length = (14 + 3) / 4 ∧ ∀ x ∈ (hexExpand (ascii "C388")).drop 14, x = false) ∧
    HexText (ascii "C389") ∧ (ascii "C389").length = (14 + 3) / 4 ∧ ∃ x ∈ (hexExpand (ascii "C389")).drop 14, x = true := by decide

theorem witness_PartitionSelection : Config.default.wf = true ∧ (6 ≤ 6 ∧ 6 ≤ 12) ∧ (6 ≤ 12 ∧ 12 ≤ 12) ∧ 5 < 6 ∧ 12 < 13 := by decide

set_option maxRecDepth 4000 in
theorem witness_EncpAppendsSegment :
    trade.cfg.wf = true ∧ ((loaded "12345" "1" "" "").getT .t0).length < 6 ∧ 12 < ((loaded "1234567890123" "1" "" "").getT .t0).length ∧
    (6 ≤ ((loaded "12345a" "1" "" "").getT .t0).length ∧ ¬ Numeral ((loaded "12345a" "1" "" "").getT .t0)) ∧
    (¬ Numeral ((loaded "123456789012" "" "" "").getT .t1) ∧ ((loaded "123456789012" "" "" "").getT .t0).length ≤ 12) ∧
    (Numeral (trade.getT .t0) ∧ Numeral ((loaded "0614141" "1048576" "" "").getT .t1) ∧
      (⟨5, 24, 7, 20, 6⟩ : PartEntry) ∈ table trade.cfg .sgtin ∧ 2 ^ 20 ≤ intValue ((loaded "0614141" "1048576" "" "").getT .t1)) ∧
    (Numeral (trade.getT .t1) ∧ intValue (trade.getT .t0) < 2 ^ 24 ∧ intValue (trade.getT .t1) < 2 ^ 20 ∧
      trade.cfg.fbcap < ({ trade with fb := zeros 152 } : State).fb.length + 47 ∧
      ({ trade with fb := zeros 151 } : State).fb.length + 47 ≤ trade.cfg.fbcap) := by decide

/-- The hypotheses of `SegmentReads`, shared by DECP, DSG and DSS, on segments at index 0. -/
theorem witness_DecpReadsSegment :
    State.reset.cfg.wf = true ∧ TReg.t0 ≠ TReg.t1 ∧ (bits "11").length < 3 ∧
    (3 ≤ (bits "111").length ∧ field (bits "111") 0 3 = 7) ∧
    ((⟨5, 24, 7, 20, 6⟩ : PartEntry) ∈ table State.reset.cfg .sgtin ∧ field (bits "101" ++ zeros 44) 0 3 = 5 ∧
      (bits "101" ++ zeros 43).length < 3 + 24 + 20 ∧ 3 + 24 + 20 ≤ (bits "101" ++ zeros 44).length) ∧
    10 ^ 7 ≤ field (bits "101" ++ bitsOf 10000000 24 ++ zeros 20) 3 24 ∧
    (field (bits "101" ++ bitsOf 9999999 24 ++ bitsOf 999999 20) 3 24 < 10 ^ 7 ∧
      field (bits "101" ++ bitsOf 9999999 24 ++ bitsOf 999999 20) 27 20 < 10 ^ 6) := by decide

theorem witness_PartitionRoundTrip :
    (Config.default.wf = true ∧ 6 ≤ (ascii "0614141").length ∧ (ascii "0614141").length ≤ 12 ∧ isDigits (ascii "0614141") = true ∧
      isDigits (ascii "812345") = true ∧ (ascii "812345").length = 13 - (ascii "0614141").length) ∧
    ∃ b, encPart Config.default .sgtin (ascii "0614141") (ascii "812345") = .ok b := ⟨by decide, ⟨_, rfl⟩⟩

theorem witness_ChkWritesCheckDigit :
    isDigits ((text "62910415002x").getT .t2) = false ∧ isDigits ((text "").getT .t2) = true := by decide

theorem witness_CheckDigitLaws : isDigits (ascii "629104150021") = true ∧ isDigits (ascii "") = true := by decide

theorem witness_KeysComposeAndSplit :
    (6 ≤ (ascii "061414").length ∧ (ascii "0614141").length ≤ 12 ∧ isDigits (ascii "0614141") = true ∧ isDigits (ascii "812345") = true) ∧
    (ascii "812345").length = 13 - (ascii "0614141").length ∧ (ascii "1234567890").length = 17 - (ascii "0614141").length := by decide

/-- The hypotheses of `SegmentChecks`, with the SGTIN fields. -/
theorem witness_Esg96BuildsFrame :
    trade.cfg.wf = true ∧ ¬ ValidSerial96 (ascii "274877906944") ∧ ¬ ValidSerial96 (ascii "001") ∧
    ValidSerial96 (ascii "274877906943") ∧ (ascii "12345").length < 6 ∧ 12 < (ascii "1234567890123").length ∧
    (6 ≤ (ascii "061414").length ∧ (ascii "061414").length ≤ 12 ∧ (ascii "812345").length ≠ 13 - (ascii "061414").length) ∧
    ((ascii "81234x").length = 13 - (ascii "0614141").length ∧ isDigits (ascii "81234x") = false) ∧
    (narrow.wf = true ∧ (⟨5, 23, 7, 21, 6⟩ : PartEntry) ∈ table narrow .sgtin ∧ 2 ^ 23 ≤ intValue (ascii "9999999")) ∧
    ((⟨5, 24, 7, 20, 6⟩ : PartEntry) ∈ table trade.cfg .sgtin ∧ trade.t1.length = 13 - trade.t0.length ∧
      intValue trade.t0 < 2 ^ 24 ∧ intValue trade.t1 < 2 ^ 20) := by decide

theorem witness_Esg198BuildsFrame :
    20 < (List.replicate 21 120 : Text).length ∧ (List.replicate 20 120 : Text).length ≤ 20 ∧
    ∃ t, exec (.esg198 1) { trade with t2 := List.replicate 20 120 } = .next t ∧ stErr t.st = 0 :=
  ⟨by decide, by decide, ⟨_, rfl, by decide⟩⟩

theorem witness_Ess96BuildsFrame :
    logistic.cfg.wf = true ∧ ¬ Numeral (ascii "") ∧ Numeral logistic.t1 ∧ (ascii "123456789").length ≠ 17 - logistic.t0.length ∧
    logistic.t1.length = 17 - logistic.t0.length ∧ isDigits (ascii "06141A1") = false ∧
    (narrowSscc.wf = true ∧ (⟨5, 23, 7, 35, 10⟩ : PartEntry) ∈ table narrowSscc .sscc ∧ 2 ^ 23 ≤ intValue (ascii "9999999")) ∧
    ((⟨5, 24, 7, 34, 10⟩ : PartEntry) ∈ table logistic.cfg .sscc ∧ intValue logistic.t0 < 2 ^ 24 ∧ intValue logistic.t1 < 2 ^ 34) := by
  decide

theorem witness_DsgDecodesFrame :
    ((ascii "3").take 2 ≠ ascii "30" ∧ (ascii "3").take 2 ≠ ascii "36") ∧
    ((ascii "30x").take 2 = ascii "30" ∧ ¬ HexText (ascii "30x")) ∧
    ((ascii "30").take 2 = ascii "30" ∧ HexText (ascii "30") ∧ 4 * (ascii "30").length < 96) ∧
    ((ascii "36").take 2 = ascii "36" ∧ HexText (ascii "36") ∧ 4 * (ascii "36").length < 198) ∧
    (HexText (ascii "303400000000000000000000") ∧ 96 ≤ 4 * (ascii "303400000000000000000000").length) ∧
    (HexText (ascii "36" ++ List.replicate 48 48) ∧ 198 ≤ 4 * (ascii "36" ++ List.replicate 48 48).length) := by decide

theorem witness_DssDecodesFrame :
    (ascii "").take 2 ≠ ascii "31" ∧ ((ascii "31x").take 2 = ascii "31" ∧ ¬ HexText (ascii "31x")) ∧
    (HexText (ascii "31") ∧ 4 * (ascii "31").length < 96) ∧
    ((ascii "311400000000000000000000").take 2 = ascii "31" ∧ HexText (ascii "311400000000000000000000") ∧
      96 ≤ 4 * (ascii "311400000000000000000000").length) := by decide

theorem witness_SsccReservedBitsIgnored :
    HexText (ascii "3114257BF4499602D2000000") ∧ HexText (ascii "3114257BF4499602D2FFFFFF") ∧
    24 ≤ (ascii "3114257BF4499602D2000000").length ∧ 24 ≤ (ascii "3114257BF4499602D2FFFFFF").length ∧
    (ascii "3114257BF4499602D2000000").take 18 = (ascii "3114257BF4499602D2FFFFFF").take 18 ∧
    (∃ t, exec .dss (loaded "" "" "" "3114257BF4499602D2000000") = .next t) ∧
    ∃ t, exec .dss { loaded "" "" "" "3114257BF4499602D2000000" with t3 := ascii "3114257BF4499602D2FFFFFF" } = .next t :=
  ⟨by decide, by decide, by decide, by decide, by decide, ⟨_, rfl⟩, ⟨_, rfl⟩⟩

theorem witness_Sgtin96RoundTrip : trade.cfg.wf = true ∧ ∃ t, exec (.esg96 7) trade = .next t ∧ stErr t.st = 0 :=
  ⟨by decide, ⟨_, rfl, by decide⟩⟩

theorem witness_Sgtin198RoundTrip :
    trade.cfg.wf = true ∧ (∀ c ∈ trade.t2, c ≠ 0) ∧ ∃ t, exec (.esg198 7) trade = .next t ∧ stErr t.st = 0 :=
  ⟨by decide, by decide, ⟨_, rfl, by decide⟩⟩

theorem witness_Sscc96RoundTrip : logistic.cfg.wf = true ∧ ∃ t, exec (.ess96 7) logistic = .next t ∧ stErr t.st = 0 :=
  ⟨by decide, ⟨_, rfl, by decide⟩⟩

/-- Each of the three commands succeeds somewhere. -/
theorem witness_CompositeEncodesEqualPrimitives :
    trade.cfg.wf = true ∧ (∃ t, exec (.esg96 1) trade = .next t ∧ stErr t.st = 0) ∧
    (∃ t, exec (.esg198 1) trade = .next t ∧ stErr t.st = 0) ∧ ∃ t, exec (.ess96 1) logistic = .next t ∧ stErr t.st = 0 :=
  ⟨by decide, ⟨_, rfl, by decide⟩, ⟨_, rfl, by decide⟩, ⟨_, rfl, by decide⟩⟩

theorem witness_PortOutputs : (stopped []).Inv ∧ 7 < (stopped []).fb.length ∧ 8 ≤ (stopped []).fb.length ∧
    (((stopped []).getT .t0).length < 64 ∧ 6 < ((stopped []).getT .t0).length ∧ 7 ≤ ((stopped []).getT .t0).length ∧ 59 < (stopped []).cfg.txcap) :=
  ⟨⟨by decide, by decide, by decide, fun i => by cases i <;> decide, by unfold statusInv; decide⟩, by decide⟩

theorem witness_PortTextLoad :
    (List.replicate 60 65 : Text).length = State.reset.cfg.txcap ∧ State.reset.cfg.txcap < (61 : BitVec 6).toNat ∧
    (60 : BitVec 6).toNat ≤ State.reset.cfg.txcap ∧ stErr State.reset.st = 0 ∧ stErr (stopped []).st ≠ 0 := by decide

end Sys2Proof.Tests
end

section
/-! PROOFS. The step on a command word (00_scope R15): the freeze test, then the decoder, then `exec`. -/

namespace Sys2Proof.Machine

open Sys2Proof.Spec

/-! ### The status a raise writes, in the numbers of the spec (10_state R26, 60_exceptions R205) -/

theorem stWord_eq_statusOf (eop : Byte) (cause : BitVec 4) (err : BitVec 2) :
    stWord eop cause err = statusOf eop.toNat cause.toNat err.toNat :=
  BitVec.eq_of_toNat_eq (by rw [statusOf, BitVec.toNat_ofNat, stWord_toNat]; omega)

/-- A raise as a write of ST alone. -/
theorem State.raise_eq_statusOf (s : State) (eop : Byte) (e : Cause) :
    s.raise eop e = { s with st := statusOf eop.toNat e.code.toNat e.cls.toNat } := by
  rw [State.raise, raisedStatus, stWord_eq_statusOf]

/-- The opcode byte `W[31:24]` as a number (30_encoding R61). -/
theorem fieldOp_toNat (w : Word) : (fieldOp w).toNat = w.toNat / 2 ^ 24 := by
  rw [fieldOp, BitVec.extractLsb'_toNat, Nat.shiftRight_eq_div_pow]
  omega

/-! ### A command word, from presented to run (R15) -/

theorem State.frozen_iff {s : State} : s.frozen = true ↔ stErr s.st ≠ 0 := bne_iff_ne

theorem step_of_command {s : State} {w : Word} {rest : List HostAction} (h : s.pending = .command w :: rest) :
    step s = stepCommand w (s.withPending rest) := by
  rw [step, h]
  rfl

/-- The freeze (60_exceptions R207). -/
theorem stepCommand_of_frozen {s : State} {w : Word} (hs : s.frozen = true) (hw : w ≠ rstWord) :
    stepCommand w s = .next s := by
  rw [stepCommand, issue, if_pos ⟨hs, hw⟩]

/-- An illegal word that passes the freeze test (30_encoding R62, R65). -/
theorem stepCommand_of_illegal {s : State} {w : Word} {x : Illegal} (hs : ¬ (s.frozen = true ∧ w ≠ rstWord))
    (hw : decode w = .error x) : stepCommand w s = .next (s.raise (fieldOp w) .vIllcmd) := by
  rw [stepCommand, issue, if_neg hs, hw]

/-- A legal word that passes the freeze test (R62). -/
theorem stepCommand_of_legal {s : State} {w : Word} {i : Instr} (hs : ¬ (s.frozen = true ∧ w ≠ rstWord))
    (hw : decode w = .ok i) : stepCommand w s = exec i s := by
  rw [stepCommand, issue, if_neg hs, hw]

/-- Settles O8, by the three outcomes of `stepCommand`: ignored, illegal, run. -/
theorem stepRunsTheDecodedCommand : Obligations.StepRunsTheDecodedCommand := by
  intro s w rest hp
  rw [step_of_command hp]
  refine ⟨fun hs hw => stepCommand_of_frozen (State.frozen_iff.mpr hs) hw, fun hpass => ?_⟩
  have hpass' : ¬ ((s.withPending rest).frozen = true ∧ w ≠ rstWord) := by
    rintro ⟨hf, hw⟩
    exact hpass.elim (State.frozen_iff.mp hf) hw
  refine ⟨fun x hx => ?_, fun i hi => stepCommand_of_legal hpass' hi⟩
  rw [stepCommand_of_illegal hpass' hx, State.raise_eq_statusOf, fieldOp_toNat]
  rfl

end Sys2Proof.Machine
end

section
/-! PROOFS. The status register, the text registers and reset (10_state R23, R26, R35). -/

namespace Sys2Proof.Machine

open Sys2Proof.Spec

/-! ### The status register (R26) -/

/-- `stWord_eq_statusOf` read from the numbers: each is the value of a field that is wide enough for it. -/
theorem statusOf_eq_stWord {eop cause err : Nat} (he : eop < 256) (hc : cause < 16) (hr : err < 4) :
    statusOf eop cause err = stWord (BitVec.ofNat 8 eop) (BitVec.ofNat 4 cause) (BitVec.ofNat 2 err) := by
  rw [stWord_eq_statusOf, BitVec.toNat_ofNat, BitVec.toNat_ofNat, BitVec.toNat_ofNat, Nat.mod_eq_of_lt he,
    Nat.mod_eq_of_lt hc, Nat.mod_eq_of_lt hr]

/-- Settles O3: a status in numbers is a concatenation of fields, and each reader gives its own field back. -/
theorem statusFields : Obligations.StatusFields := by
  intro eop he cause hc err hr
  rw [statusOf_eq_stWord he hc hr, stErr_stWord, stCause_stWord, stReserved_stWord, stEop_stWord]
  exact ⟨Nat.mod_eq_of_lt hr, Nat.mod_eq_of_lt hc, rfl, Nat.mod_eq_of_lt he⟩

theorem statusInv_zero : statusInv 0 := by unfold statusInv; decide

theorem statusInv_raisedStatus (o : Byte) (e : Cause) : statusInv (raisedStatus o e) := by
  rw [statusInv, raisedStatus, stReserved_stWord, stErr_stWord, stCause_stWord]
  exact ⟨rfl, fun h => absurd h e.cls_ne_zero, fun _ => e.code_ne_zero⟩

/-! ### Text registers and reset (R23, R35) -/

/-- Settles O2, by the laws of `setT`. -/
theorem textRegistersDoNotAlias : Obligations.TextRegistersDoNotAlias := fun s i j x =>
  ⟨s.getT_setT i j x, s.setT_fb i x, s.setT_rc i x, s.setT_flt i x, s.setT_hdr i x, s.setT_st i x, s.setT_cfg i x⟩

theorem State.reset_getT (r : TReg) : State.reset.getT r = [] := by cases r <;> rfl

/-- Settles O1: RST and hardware reset both answer `clearAll`. -/
theorem resetValues : Obligations.ResetValues :=
  ⟨⟨rfl, rfl, State.reset_getT, rfl, rfl, rfl⟩,
    fun s => ⟨s.clearAll, rfl, rfl, rfl, rfl, s.clearAll_getT, rfl, rfl, rfl, rfl⟩⟩

end Sys2Proof.Machine
end

section
/-! PROOFS. The columns a command writes (10_state R28). -/

namespace Sys2Proof.Machine

open Sys2Proof.Spec

/-! ### The columns of R28, one rule per state operation -/

/-- The frame of a command as the statement about R28 says it: `t` differs from `s` at most in the columns that `i` may
write. -/
structure KeepsColumns (i : Instr) (s t : State) : Prop where
  fb : writesFB i = false → t.fb = s.fb
  rc : writesRC i = false → t.rc = s.rc
  text : ∀ r, r ∉ writesT i → t.getT r = s.getT r
  info : writesInfo i = false → t.flt = s.flt ∧ t.hdr = s.hdr
  cfg : t.cfg = s.cfg
  pending : t.pending = s.pending
  reply : t.reply = s.reply

namespace KeepsColumns

variable {i : Instr} {s t u : State}

theorem trans (h : KeepsColumns i s t) (h' : KeepsColumns i t u) : KeepsColumns i s u where
  fb hi := (h'.fb hi).trans (h.fb hi)
  rc hi := (h'.rc hi).trans (h.rc hi)
  text r hr := (h'.text r hr).trans (h.text r hr)
  info hi := ⟨(h'.info hi).1.trans (h.info hi).1, (h'.info hi).2.trans (h.info hi).2⟩
  cfg := h'.cfg.trans h.cfg
  pending := h'.pending.trans h.pending
  reply := h'.reply.trans h.reply

/-- An error is recorded in ST, which is no column of any command. -/
theorem raise (o : Byte) (e : Cause) : KeepsColumns i s (s.raise o e) := by
  constructor <;> simp

theorem memAppend (v : Bits) (hfb : writesFB i = true) : KeepsColumns i s (s.memAppend v) := by
  constructor <;> simp [hfb]

theorem setRC (v : Nat) (hrc : writesRC i = true) : KeepsColumns i s (s.setRC v) := by
  constructor <;> simp [hrc]

theorem loadFrame (x : Bits) (r : Nat) (hfb : writesFB i = true) (hrc : writesRC i = true) :
    KeepsColumns i s (s.loadFrame x r) := by
  constructor <;> simp [hfb, hrc]

theorem setFrameInfo (f : BitVec 3) (h : Byte) (hinfo : writesInfo i = true) :
    KeepsColumns i s (s.setFrameInfo f h) := by
  constructor <;> simp [hinfo]

theorem setT {r : TReg} (x : Text) (hr : r ∈ writesT i) : KeepsColumns i s (s.setT r x) where
  text _ hr' := s.getT_setT_other _ _ x fun h => hr' (h ▸ hr)
  fb _ := s.setT_fb r x
  rc _ := s.setT_rc r x
  info _ := ⟨s.setT_flt r x, s.setT_hdr r x⟩
  cfg := s.setT_cfg r x
  pending := s.setT_pending r x
  reply := s.setT_reply r x

/-- The two fields of a decoded segment (43_partition R138, 45_frames R167, R168). -/
theorem setSegment {ra rb : TReg} (x y : Text) (ha : ra ∈ writesT i) (hb : rb ∈ writesT i) :
    KeepsColumns i s ((s.setT ra x).setT rb y) :=
  (setT x ha).trans (setT y hb)

/-- How DECI and DECS end (40_integer R104, 41_string R113). -/
theorem readField {r : TReg} (x : Text) (v : Nat) (hr : r ∈ writesT i) (hrc : writesRC i = true) :
    KeepsColumns i s ((s.setT r x).setRC v) :=
  (setT x hr).trans (setRC v hrc)

/-- How every composite encode ends (45_frames R162, R163, R165). -/
theorem emitFrame (x : Bits) (hfb : writesFB i = true) (hrc : writesRC i = true) (ht : .t3 ∈ writesT i) :
    KeepsColumns i s (s.emitFrame x) :=
  (loadFrame x 0 hfb hrc).trans (setT _ ht)

theorem clearAll : KeepsColumns .rst s s.clearAll where
  text r hr := absurd (by cases r <;> decide) hr
  fb := nofun
  rc := nofun
  info := nofun
  cfg := rfl
  pending := rfl
  reply := rfl

/-- The frame of a command from the frame of its own effect. -/
theorem of_raisedOr {o : Opcode} {good : Prop} (h : RaisedOr o s t good) (hg : good → KeepsColumns i s t) :
    KeepsColumns i s t := by
  obtain ⟨e, rfl⟩ | h := h
  · exact raise _ e
  · exact hg h

end KeepsColumns

/-- The table of R28, row by row: each write of the command falls in a column of its row. -/
theorem exec_keepsColumns {i : Instr} {s t : State} (h : exec i s = .next t) : KeepsColumns i s t := by
  cases i with
  | rst => exact exec_rst_next h ▸ .clearAll
  | clr => exact exec_clr_next h ▸ .loadFrame _ _ rfl rfl
  | rew => exact exec_rew_next h ▸ .setRC _ rfl
  | enci ta n => exact .of_raisedOr (exec_enci_next h) fun ⟨_, _, _, ht⟩ => ht ▸ .memAppend _ rfl
  | encii imm n => exact .of_raisedOr (exec_encii_next h) fun ⟨_, _, ht⟩ => ht ▸ .memAppend _ rfl
  | deci ta n =>
    exact .of_raisedOr (exec_deci_next h) fun ⟨_, _, ht⟩ => ht ▸ .readField _ _ (List.mem_singleton_self _) rfl
  | encs ta n => exact .of_raisedOr (exec_encs_next h) fun ⟨_, _, ht⟩ => ht ▸ .memAppend _ rfl
  | decs ta n =>
    exact .of_raisedOr (exec_decs_next h) fun ⟨_, _, ht⟩ => ht ▸ .readField _ _ (List.mem_singleton_self _) rfl
  | b2h ta => exact exec_b2h_next h ▸ .setT _ (List.mem_singleton_self _)
  | h2b ta n => exact .of_raisedOr (exec_h2b_next h) fun ⟨_, _, _, ht⟩ => ht ▸ .loadFrame _ _ rfl rfl
  | encp fam ta tb => exact .of_raisedOr (exec_encp_next h) fun ⟨_, _, _, ht⟩ => ht ▸ .memAppend _ rfl
  | decp fam ta tb =>
    refine .of_raisedOr (exec_decp_next h) fun ⟨_, _, _, _, ht⟩ => ht ▸ ?_
    exact (KeepsColumns.setSegment _ _ (by simp [writesT]) (by simp [writesT])).trans (.setRC _ rfl)
  | chk ta tb => exact .of_raisedOr (exec_chk_next h) fun ⟨_, ht⟩ => ht ▸ .setT _ (List.mem_singleton_self _)
  | esg96 flt =>
    exact .of_raisedOr (exec_esg96_next h) fun ⟨_, _, _, _, ht⟩ => ht ▸ .emitFrame _ rfl rfl (List.mem_singleton_self _)
  | esg198 flt =>
    exact .of_raisedOr (exec_esg198_next h) fun ⟨_, _, _, _, ht⟩ => ht ▸ .emitFrame _ rfl rfl (List.mem_singleton_self _)
  | ess96 flt =>
    exact .of_raisedOr (exec_ess96_next h) fun ⟨_, _, _, ht⟩ => ht ▸ .emitFrame _ rfl rfl (List.mem_singleton_self _)
  | dsg =>
    refine .of_raisedOr (exec_dsg_next h) fun ⟨_, _, _, _, _, _, ht⟩ => ht ▸ ?_
    exact (((KeepsColumns.loadFrame _ _ rfl rfl).trans (.setSegment _ _ (by decide) (by decide))).trans
      (.setT _ (by decide))).trans (.setFrameInfo _ _ rfl)
  | dss =>
    refine .of_raisedOr (exec_dss_next h) fun ⟨_, _, _, _, _, ht⟩ => ht ▸ ?_
    exact ((KeepsColumns.loadFrame _ _ rfl rfl).trans (.setSegment _ _ (by decide) (by decide))).trans
      (.setFrameInfo _ _ rfl)

/-- Settles O7, by the rule of each state operation along the command's effect. -/
theorem writesOnlyItsColumns : Obligations.WritesOnlyItsColumns := fun _ _ _ h =>
  have k := exec_keepsColumns h
  ⟨k.fb, k.rc, k.text, k.info, k.cfg, k.pending, k.reply⟩

end Sys2Proof.Machine
end

section
/-! PROOFS. The host actions that are no command (10_state R34), what every step keeps, and the read-only
configuration (R27). -/

namespace Sys2Proof.Machine

open Sys2Proof.Spec

/-! ### The host actions that are no command (R34) -/

theorem step_of_pending {s : State} {a : HostAction} {rest : List HostAction} (h : s.pending = a :: rest) :
    step s = stepAction a (s.withPending rest) := by
  rw [step, h]

theorem step_of_idle {s : State} (h : s.pending = []) : step s = .next s := by
  rw [step, h]

/-- The model refuses a load the host must not attempt (R34). -/
theorem hostLoadT_of_lt {s : State} {i : TReg} {x : Text} (h : s.cfg.txcap < x.length) :
    hostLoadT i x s = .refused .hostTextTooLong := if_pos h

/-- A load within TXCAP writes its register, unless the block is frozen (60_exceptions R207). -/
theorem hostLoadT_of_le {s : State} {i : TReg} {x : Text} (h : x.length ≤ s.cfg.txcap) :
    hostLoadT i x s = .next (if stErr s.st = 0 then s.setT i x else s) := by
  rw [hostLoadT, if_neg h.not_gt]
  by_cases hst : stErr s.st = 0
  · rw [if_neg fun hf => State.frozen_iff.mp hf hst, if_pos hst]
  · rw [if_pos (State.frozen_iff.mpr hst), if_neg hst]

/-- Settles O9: `step` takes the first action off the list, and each action has its own rule. -/
theorem hostActions : Obligations.HostActions := by
  intro s rest
  refine ⟨fun i x hp hx => ?_, fun i x hp hx => ?_, fun i hp => ?_, fun hp => ?_, fun hp => ?_, fun hp => ?_,
    step_of_idle⟩
  · exact (step_of_pending hp).trans (hostLoadT_of_le hx)
  · exact (step_of_pending hp).trans (hostLoadT_of_lt hx)
  · rw [step_of_pending hp, stepAction, hostReadT, State.withPending_getT]
    rfl
  all_goals exact step_of_pending hp

/-! ### What every part of a step keeps, a step keeps -/

/-- The predicate survives each of the writes that a host action is made of. Hardware reset is the effect of RST
(70_reset_and_hazards R230), so `exec` covers it; `raise` is the record of an illegal word (30_encoding R65). -/
structure KeptByParts (P : State → Prop) : Prop where
  withPending : ∀ s as, P s → P (s.withPending as)
  load : ∀ s i x, x.length ≤ s.cfg.txcap → P s → P (s.setT i x)
  answer : ∀ s r, P s → P (s.answer r)
  raise : ∀ s o e, P s → P (s.raise o e)
  exec : ∀ i s t, exec i s = .next t → P s → P t

namespace KeptByParts

variable {P : State → Prop} {s t : State}

theorem hostLoadT {i : TReg} {x : Text} (hP : KeptByParts P) (h : hostLoadT i x s = .next t) (hs : P s) : P t := by
  by_cases hx : x.length ≤ s.cfg.txcap
  · rw [hostLoadT_of_le hx] at h
    injection h with h
    subst h
    split
    · exact hP.load s i x hx hs
    · exact hs
  · rw [hostLoadT_of_lt (not_le.mp hx)] at h
    cases h

theorem stepCommand {w : Word} (hP : KeptByParts P) (h : stepCommand w s = .next t) (hs : P s) : P t := by
  by_cases hf : s.frozen = true ∧ w ≠ rstWord
  · rw [stepCommand_of_frozen hf.1 hf.2] at h
    injection h with h
    exact h ▸ hs
  · cases hw : decode w with
    | error x =>
      rw [stepCommand_of_illegal hf hw] at h
      injection h with h
      exact h ▸ hP.raise s _ _ hs
    | ok i => exact hP.exec i s t ((stepCommand_of_legal hf hw).symm.trans h) hs

theorem stepAction {a : HostAction} (hP : KeptByParts P) (h : stepAction a s = .next t) (hs : P s) : P t := by
  cases a with
  | loadT i x => exact hP.hostLoadT h hs
  | readT i => cases h; exact hP.answer s _ hs
  | readFB => cases h; exact hP.answer s _ hs
  | readStatus => cases h; exact hP.answer s _ hs
  | command w => exact hP.stepCommand h hs
  | hardwareReset => exact hP.exec .rst s t h hs

theorem step (hP : KeptByParts P) (h : step s = .next t) (hs : P s) : P t := by
  cases hp : s.pending with
  | nil =>
    rw [step_of_idle hp] at h
    cases h
    exact hs
  | cons a rest => exact hP.stepAction ((step_of_pending hp).symm.trans h) (hP.withPending s rest hs)

end KeptByParts

/-! ### The configuration is read-only (R27, 70_reset_and_hazards R231) -/

theorem keptByParts_cfg_eq (c : Config) : KeptByParts fun s => s.cfg = c where
  withPending _ _ hs := hs
  load s i x _ hs := (s.setT_cfg i x).trans hs
  answer _ _ hs := hs
  raise _ _ _ hs := hs
  exec _ _ _ h hs := (exec_keepsColumns h).cfg.trans hs

/-- Settles O16: no part of a step writes the configuration. -/
theorem configurationNeverWritten : Obligations.ConfigurationNeverWritten := fun s _ h =>
  (keptByParts_cfg_eq s.cfg).step h rfl

end Sys2Proof.Machine
end

section
/-! PROOFS. The invariant of 10_state R36: at reset, under every state operation, every command and every host
action. -/

namespace Sys2Proof.Machine

/-! ### The invariant of R36, one rule per state operation -/

/-- Settles O13. -/
theorem resetMeetsInvariant : Obligations.ResetMeetsInvariant where
  cfg_wf := by decide
  fb_fits := reset_memory_wf
  rc_le := le_rfl
  text_fits i := by rw [State.reset_getT]; exact Nat.zero_le _
  status := statusInv_zero

/-- A slice is no longer than asked for, wherever it starts. -/
theorem slice_length_le (b : Bits) (a n : Nat) : (slice b a n).length ≤ n := List.length_take_le ..

namespace State.Inv

variable {s t : State}

theorem fb_length_le (hs : s.Inv) : s.fb.length ≤ s.cfg.fbcap := memory_wf_iff.mp hs.fb_fits

theorem withPending (hs : s.Inv) (as : List HostAction) : (s.withPending as).Inv :=
  { hs with text_fits := fun i => s.withPending_getT as i ▸ hs.text_fits i }

theorem answer (hs : s.Inv) (r : HostReply) : (s.answer r).Inv :=
  { hs with text_fits := fun i => s.answer_getT r i ▸ hs.text_fits i }

theorem raise (hs : s.Inv) (o : Byte) (e : Cause) : (s.raise o e).Inv :=
  { hs with
    text_fits := fun i => s.raise_getT o e i ▸ hs.text_fits i
    status := statusInv_raisedStatus o e }

theorem setT (hs : s.Inv) (i : TReg) {x : Text} (hx : x.length ≤ s.cfg.txcap) : (s.setT i x).Inv where
  cfg_wf := by simpa using hs.cfg_wf
  fb_fits := by simpa using hs.fb_fits
  rc_le := by simpa using hs.rc_le
  text_fits j := by
    rw [State.getT_setT, State.setT_cfg]
    split
    · exact hx
    · exact hs.text_fits j
  status := by simpa using hs.status

theorem loadFrame (hs : s.Inv) {x : Bits} {r : Nat} (hx : x.length ≤ s.cfg.fbcap) (hr : r ≤ x.length) :
    (s.loadFrame x r).Inv :=
  { hs with
    fb_fits := loadFrame_memory_wf hx
    rc_le := hr
    text_fits := fun i => s.loadFrame_getT x r i ▸ hs.text_fits i }

theorem setRC (hs : s.Inv) {v : Nat} (hv : v ≤ s.fb.length) : (s.setRC v).Inv :=
  { hs with
    rc_le := hv
    text_fits := fun i => s.setRC_getT v i ▸ hs.text_fits i }

theorem setFrameInfo (hs : s.Inv) (f : BitVec 3) (h : Byte) : (s.setFrameInfo f h).Inv :=
  { hs with text_fits := fun i => s.setFrameInfo_getT f h i ▸ hs.text_fits i }

/-- An append is a load of the longer buffer with the cursor where it is. -/
theorem memAppend (hs : s.Inv) {v : Bits} (hv : s.fb.length + v.length ≤ s.cfg.fbcap) : (s.memAppend v).Inv :=
  have hlen : (s.fb ++ v).length = s.fb.length + v.length := List.length_append
  hs.loadFrame (x := s.fb ++ v) (r := s.rc) (hlen ▸ hv) (hlen ▸ Nat.le_add_right_of_le hs.rc_le)

theorem clearAll (hs : s.Inv) : s.clearAll.Inv where
  cfg_wf := hs.cfg_wf
  fb_fits := empty_memory_wf _
  rc_le := le_rfl
  text_fits i := by rw [State.clearAll_getT]; exact Nat.zero_le _
  status := statusInv_zero

/-- The hex text of any frame buffer fits a text register (00_scope R5). -/
theorem binToHex_length_le (hs : s.Inv) {x : Bits} (hx : x.length ≤ s.cfg.fbcap) :
    (binToHex x).length ≤ s.cfg.txcap := by
  obtain ⟨_, _, _, hhex, _⟩ := Config.wf_caps hs.cfg_wf
  rw [binToHex_length]
  omega

theorem emitFrame (hs : s.Inv) {x : Bits} (hx : x.length ≤ s.cfg.fbcap) : (s.emitFrame x).Inv :=
  (hs.loadFrame hx (Nat.zero_le _)).setT .t3 (hs.binToHex_length_le hx)

/-- How DECI and DECS end (40_integer R104, 41_string R113). -/
theorem readField (hs : s.Inv) (ta : TReg) {n : Nat} {x : Text} (hn : s.rc + n ≤ s.fb.length)
    (hx : x.length ≤ s.cfg.txcap) : ((s.setT ta x).setRC (s.rc + n)).Inv :=
  (hs.setT ta hx).setRC (by rwa [State.setT_fb])

/-- DECI writes the decimal of bits of FB (R104), DECS their characters (R113); TXCAP holds either (00_scope R5). -/
theorem memRead_texts_fit (hs : s.Inv) {n : Nat} (hn : s.rc + n ≤ s.fb.length) :
    (decInt (s.memRead s.rc n)).length ≤ s.cfg.txcap ∧ (decStr (s.memRead s.rc n)).length ≤ s.cfg.txcap := by
  obtain ⟨_, _, _, hhex, _⟩ := Config.wf_caps hs.cfg_wf
  have hfb := hs.fb_length_le
  have hlen := memRead_length hn
  have hstr := decStr_length_le (s.memRead s.rc n)
  exact ⟨decInt_length_le hs.cfg_wf (by omega), by omega⟩

/-- The two fields of a decoded segment fit their registers (43_partition R136). -/
theorem setSegment (hs : s.Inv) {fam : Family} {b : Bits} {f : Text × Text} (hf : decPart s.cfg fam b = .ok f)
    (ta tb : TReg) : ((s.setT ta f.1).setT tb f.2).Inv := by
  obtain ⟨_, _, _, _, htx⟩ := Config.wf_caps hs.cfg_wf
  obtain ⟨h1, h2⟩ := decPart_length hs.cfg_wf hf
  refine (hs.setT ta (by omega)).setT tb ?_
  rw [State.setT_cfg]
  omega

/-- DECP puts RC at the end of the segment it has read, which `decPart` has found in FB (R136, R138). -/
theorem decp_cursor_le (hs : s.Inv) {fam : Family} {f : Text × Text} {e : PartEntry}
    (hf : decPart s.cfg fam (s.memRead s.rc (s.fb.length - s.rc)) = .ok f)
    (he : PT s.cfg fam (uint (slice (s.memRead s.rc (s.fb.length - s.rc)) 0 3)) = some e) :
    s.rc + 3 + e.b1 + e.b2 ≤ s.fb.length := by
  obtain ⟨_, e', he', hlen, _⟩ := decPart_eq_ok.mp hf
  obtain rfl : e' = e := Option.some.inj (he'.symm.trans he)
  have hrc := hs.rc_le
  rw [memRead_length (by omega)] at hlen
  omega

/-- The bits of a frame text are a frame that FB holds, with RC on or before its end (45_frames R167, R168). -/
theorem loadHex (hs : s.Inv) {h : Text} {n r : Nat} {x : Bits} (hx : hexToBin h n = .ok x) (hn : n ≤ s.cfg.fbcap)
    (hr : r ≤ n) : (s.loadFrame x r).Inv := by
  have hlen := hexToBin_length hx
  exact hs.loadFrame (by omega) (by omega)

/-- The serial of DSG is a number of 38 bits or at most 20 characters (R167). -/
theorem dsgState (hs : s.Inv) {h : Text} {n : Nat} {x : Bits} {f : Text × Text} (hx : hexToBin h n = .ok x)
    (hn : n = 96 ∨ n = 198) (hf : decPart s.cfg .sgtin (slice x 11 47) = .ok f) : (dsgState s x n f).Inv := by
  obtain ⟨hfb, _, _, _, htx⟩ := Config.wf_caps hs.cfg_wf
  have hseg := (hs.loadHex hx (by omega) le_rfl).setSegment hf .t0 .t1
  refine (hseg.setT .t2 ?_).setFrameInfo _ _
  simp only [State.setT_cfg, State.loadFrame_cfg]
  split
  · have hlen := slice_length_le x 58 38
    exact decInt_length_le hs.cfg_wf (by omega)
  · have hlen := slice_length_le x 58 140
    have hstr := decStr_length_le (slice x 58 140)
    omega

theorem of_raisedOr {o : Opcode} {good : Prop} (hs : s.Inv) (h : RaisedOr o s t good) (hg : good → t.Inv) :
    t.Inv := by
  obtain ⟨e, rfl⟩ | h := h
  · exact hs.raise _ e
  · exact hg h

/-- Header, filter, segment and serial of every composite encode make no more than the 198 bits that FB holds at least
(00_scope R5; 30_encoding R70 to R72). -/
theorem emitSegment (hs : s.Inv) {fam : Family} {cp comp : Text} {seg ser : Bits}
    (hseg : encSeg s.cfg fam cp comp = .ok seg) (header flt : Nat) (hser : 11 + famTotal fam + ser.length ≤ 198) :
    (s.emitFrame (bitsOf header 8 ++ bitsOf flt 3 ++ seg ++ ser)).Inv := by
  obtain ⟨hfb, _⟩ := Config.wf_caps hs.cfg_wf
  refine hs.emitFrame ?_
  simp only [List.length_append, bitsOf_length, encSeg_length hs.cfg_wf hseg]
  omega

/-- The command half of R36: each write of a command stays within the bounds, by the command's own checks and the
capacities of R5. -/
theorem exec {i : Instr} (hs : s.Inv) (h : exec i s = .next t) : t.Inv := by
  cases i with
  | rst => exact exec_rst_next h ▸ hs.clearAll
  | clr => exact exec_clr_next h ▸ hs.loadFrame (Nat.zero_le _) le_rfl
  | rew => exact exec_rew_next h ▸ hs.setRC (Nat.zero_le _)
  | enci ta n =>
    exact hs.of_raisedOr (exec_enci_next h) fun ⟨_, _, hn, ht⟩ => ht ▸ hs.memAppend (by rwa [bitsOf_length])
  | encii imm n =>
    exact hs.of_raisedOr (exec_encii_next h) fun ⟨_, hn, ht⟩ => ht ▸ hs.memAppend (by rwa [bitsOf_length])
  | deci ta n =>
    exact hs.of_raisedOr (exec_deci_next h) fun ⟨_, hn, ht⟩ => ht ▸ hs.readField ta hn (hs.memRead_texts_fit hn).1
  | encs ta n =>
    refine hs.of_raisedOr (exec_encs_next h) fun ⟨hlen, hn, ht⟩ => ht ▸ hs.memAppend ?_
    simp only [List.length_append, packChars_length, zeros_length]
    omega
  | decs ta n =>
    exact hs.of_raisedOr (exec_decs_next h) fun ⟨_, hn, ht⟩ => ht ▸ hs.readField ta hn (hs.memRead_texts_fit hn).2
  | b2h ta => exact exec_b2h_next h ▸ hs.setT ta (hs.binToHex_length_le hs.fb_length_le)
  | h2b ta n =>
    exact hs.of_raisedOr (exec_h2b_next h) fun ⟨_, hx, hn, ht⟩ => ht ▸ hs.loadHex hx hn (Nat.zero_le _)
  | encp fam ta tb => exact hs.of_raisedOr (exec_encp_next h) fun ⟨_, _, hn, ht⟩ => ht ▸ hs.memAppend hn
  | decp fam ta tb =>
    refine hs.of_raisedOr (exec_decp_next h) fun ⟨_, _, hf, he, ht⟩ => ht ▸ (hs.setSegment hf ta tb).setRC ?_
    rw [State.setT_fb, State.setT_fb]
    exact hs.decp_cursor_le hf he
  | chk ta tb =>
    obtain ⟨_, _, _, _, htx⟩ := Config.wf_caps hs.cfg_wf
    exact hs.of_raisedOr (exec_chk_next h) fun ⟨_, ht⟩ => ht ▸ hs.setT tb (le_trans (by decide : 1 ≤ 20) htx)
  | esg96 flt =>
    refine hs.of_raisedOr (exec_esg96_next h) fun ⟨_, _, hseg, _, ht⟩ => ht ▸ hs.emitSegment hseg _ _ ?_
    rw [bitsOf_length]
    decide
  | esg198 flt =>
    refine hs.of_raisedOr (exec_esg198_next h) fun ⟨_, _, hseg, hser, ht⟩ => ht ▸ hs.emitSegment hseg _ _ ?_
    rw [encStr_length hser]
    decide
  | ess96 flt =>
    refine hs.of_raisedOr (exec_ess96_next h) fun ⟨_, _, hseg, ht⟩ => ht ▸ hs.emitSegment hseg _ _ ?_
    rw [zeros_length]
    decide
  | dsg =>
    exact hs.of_raisedOr (exec_dsg_next h) fun ⟨_, _, _, hn, hx, hf, ht⟩ =>
      ht ▸ hs.dsgState hx (hn.imp And.right And.right) hf
  | dss =>
    obtain ⟨hfb, _⟩ := Config.wf_caps hs.cfg_wf
    exact hs.of_raisedOr (exec_dss_next h) fun ⟨_, _, _, hx, hf, ht⟩ =>
      ht ▸ ((hs.loadHex hx (by omega) (by decide)).setSegment hf .t0 .t1).setFrameInfo _ _

end State.Inv

theorem keptByParts_inv : KeptByParts State.Inv where
  withPending _ as hs := hs.withPending as
  load _ i _ hx hs := hs.setT i hx
  answer _ r hs := hs.answer r
  raise _ o e hs := hs.raise o e
  exec _ _ _ h hs := hs.exec h

/-- Settles O14, by the rules of the state operations: every command keeps the invariant, and so does every other part
of a step. -/
theorem stepKeepsInvariant : Obligations.StepKeepsInvariant := fun _ _ hs h => keptByParts_inv.step h hs

end Sys2Proof.Machine
end

section
/-! PROOFS. Reads of adjacent fields (20_memory R42, 40_integer R104). -/

namespace Sys2Proof.Machine

/-! ### Adjacent slices of FB (R42) -/

/-- `slice_add` in numbers: the first of two adjacent fields holds the higher bits. -/
theorem uint_slice_add {b : Bits} {a m n : Nat} (h : a + m + n ≤ b.length) :
    uint (slice b a (m + n)) = uint (slice b a m) * 2 ^ n + uint (slice b (a + m) n) := by
  rw [slice_add, uint_append, slice_length h]

/-! ### DECI (R101, R104) -/

theorem intValue_decInt (b : Bits) : intValue (decInt b) = uint b := intValue_dec (uint b)

/-- DECI where it does not fail: the field at the cursor is written and the cursor passes it. -/
theorem exec_deci_of_le {ta : TReg} {n : Nat} {s : State} (hn : 1 ≤ n) (hlen : s.rc + n ≤ s.fb.length) :
    exec (.deci ta n) s = .next ((s.setT ta (decInt (s.memRead s.rc n))).setRC (s.rc + n)) := by
  change execDeci ta n s = _
  rw [execDeci, require_pos hn, require_pos hlen]
  rfl

/-- Settles O28, by `uint_slice_add`: the second read keeps the first one's register and starts where it ended. -/
theorem mixedWidthReadsAgree : Obligations.MixedWidthReadsAgree := by
  intro s ta tb m n hm hn hne hlen
  refine ⟨_, _, _, exec_deci_of_le hm (by omega), exec_deci_of_le hn (by simpa using hlen),
    exec_deci_of_le (by omega) (by omega), ?_, ?_⟩
  · simp [State.getT_setT_other _ _ _ _ hne, State.memRead, intValue_decInt, uint_slice_add hlen]
  · simp [Nat.add_assoc]

end Sys2Proof.Machine
end

section
/-! PROOFS. The decoder and the encoder are inverse to one another, and both agree with the opcode map (30_encoding R61
to R63). -/

namespace Sys2Proof

open Sys2Proof.Spec

/-! ### A row of the opcode map, field by field (R62 conditions (a) and (b), R63) -/

/-- A word spelled out in its fields (R61). -/
theorem wordOf_eq_iff {w : Word} {op : Byte} {ta tb : BitVec 2} {flt : BitVec 3} {fam : BitVec 1} {n imm : Byte} :
    wordOf op ta tb flt fam n imm = w ↔ fieldOp w = op ∧ fieldTa w = ta ∧ fieldTb w = tb ∧ fieldFlt w = flt ∧
      fieldFam w = fam ∧ fieldN w = n ∧ fieldImm w = imm := by
  constructor
  · rintro rfl
    exact ⟨fieldOp_wordOf .., fieldTa_wordOf .., fieldTb_wordOf .., fieldFlt_wordOf .., fieldFam_wordOf ..,
      fieldN_wordOf .., fieldImm_wordOf ..⟩
  · rintro ⟨rfl, rfl, rfl, rfl, rfl, rfl, rfl⟩
    exact wordOf_fields w

theorem pattern_eq_wordOf (o : Opcode) : o.pattern = wordOf o.byte 0 0 0 0 0 0 := by cases o <;> rfl

/-- Every mask covers the opcode byte. -/
theorem fieldOp_mask (o : Opcode) : fieldOp o.mask = BitVec.allOnes 8 := by cases o <;> rfl

/-- What matching the row of `o` says of a word: it has the opcode byte of `o`, and a field that the mask covers is 0. -/
structure MatchesRow (o : Opcode) (w : Word) : Prop where
  op : fieldOp w = o.byte
  ta : fieldTa o.mask = BitVec.allOnes 2 → fieldTa w = 0
  tb : fieldTb o.mask = BitVec.allOnes 2 → fieldTb w = 0
  flt : fieldFlt o.mask = BitVec.allOnes 3 → fieldFlt w = 0
  fam : fieldFam o.mask = BitVec.allOnes 1 → fieldFam w = 0
  n : fieldN o.mask = BitVec.allOnes 8 → fieldN w = 0
  imm : fieldImm o.mask = BitVec.allOnes 8 → fieldImm w = 0

theorem eq_of_and_eq {k : Nat} {x m y : BitVec k} (h : y = x &&& m) (hm : m = BitVec.allOnes k) : x = y := by
  rw [h, hm, BitVec.and_allOnes]

/-- The test `W AND mask = match`, read field by field. -/
theorem matchesRow_of_and {o : Opcode} {w : Word} (h : w &&& o.mask = o.pattern) : MatchesRow o w := by
  rw [pattern_eq_wordOf, ← wordOf_fields w, ← wordOf_fields o.mask, wordOf_and, wordOf_eq_iff] at h
  simp only [fieldOp_wordOf, fieldTa_wordOf, fieldTb_wordOf, fieldFlt_wordOf, fieldFam_wordOf, fieldN_wordOf,
    fieldImm_wordOf] at h
  obtain ⟨hop, hta, htb, hflt, hfam, hn, himm⟩ := h
  exact ⟨eq_of_and_eq hop (fieldOp_mask o), eq_of_and_eq hta, eq_of_and_eq htb, eq_of_and_eq hflt,
    eq_of_and_eq hfam, eq_of_and_eq hn, eq_of_and_eq himm⟩

/-! ### The operands of a row, read and written back (R62 condition (c), R64) -/

/-- DECP alone can refuse its operands (R62 condition (c)). -/
theorem operands_decp_eq_ok {w : Word} {i : Instr} :
    operands .decp w = .ok i ↔ TReg.ofBits (fieldTa w) ≠ TReg.ofBits (fieldTb w) ∧
      i = .decp (Family.ofBit (fieldFam w)) (TReg.ofBits (fieldTa w)) (TReg.ofBits (fieldTb w)) := by
  unfold operands
  dsimp only
  split <;> simp_all [eq_comm]

theorem opcode_of_operands {o : Opcode} {w : Word} {i : Instr} (h : operands o w = .ok i) : i.opcode = o := by
  cases o with
  | decp => obtain ⟨_, rfl⟩ := operands_decp_eq_ok.mp h; rfl
  | _ => cases h; rfl

theorem fitsByte_toNat (b : Byte) : fitsByte b.toNat = true := decide_eq_true b.isLt

theorem ofNat_toNat_byte (b : Byte) : BitVec.ofNat 8 b.toNat = b := by rw [BitVec.ofNat_toNat, BitVec.setWidth_eq]

/-- A command read from a word has operands that fit their fields. -/
theorem wellFormed_of_operands {o : Opcode} {w : Word} {i : Instr} (h : operands o w = .ok i) :
    i.wellFormed = true := by
  cases o with
  | decp =>
    obtain ⟨hne, rfl⟩ := operands_decp_eq_ok.mp h
    exact decide_eq_true hne
  | _ => cases h; simp [Instr.wellFormed, fitsByte_toNat]

/-- The operands of a word that matches the row give the word back: the fields the command uses are its operands, and the
mask of the row covers every other field. -/
theorem encode_of_operands {o : Opcode} {w : Word} {i : Instr} (hw : MatchesRow o w) (h : operands o w = .ok i) :
    encode i = w := by
  cases o with
  | rst | clr | rew | dsg | dss =>
    cases h
    exact wordOf_eq_iff.mpr ⟨hw.op, hw.ta rfl, hw.tb rfl, hw.flt rfl, hw.fam rfl, hw.n rfl, hw.imm rfl⟩
  | enci | deci | encs | decs | h2b =>
    cases h
    exact wordOf_eq_iff.mpr ⟨hw.op, (bits_ofBits _).symm, hw.tb rfl, hw.flt rfl, hw.fam rfl, (ofNat_toNat_byte _).symm,
      hw.imm rfl⟩
  | encii =>
    cases h
    exact wordOf_eq_iff.mpr ⟨hw.op, hw.ta rfl, hw.tb rfl, hw.flt rfl, hw.fam rfl, (ofNat_toNat_byte _).symm,
      (ofNat_toNat_byte _).symm⟩
  | b2h =>
    cases h
    exact wordOf_eq_iff.mpr ⟨hw.op, (bits_ofBits _).symm, hw.tb rfl, hw.flt rfl, hw.fam rfl, hw.n rfl, hw.imm rfl⟩
  | encp =>
    cases h
    exact wordOf_eq_iff.mpr ⟨hw.op, (bits_ofBits _).symm, (bits_ofBits _).symm, hw.flt rfl, (bit_ofBit _).symm,
      hw.n rfl, hw.imm rfl⟩
  | decp =>
    obtain ⟨_, rfl⟩ := operands_decp_eq_ok.mp h
    exact wordOf_eq_iff.mpr ⟨hw.op, (bits_ofBits _).symm, (bits_ofBits _).symm, hw.flt rfl, (bit_ofBit _).symm,
      hw.n rfl, hw.imm rfl⟩
  | chk =>
    cases h
    exact wordOf_eq_iff.mpr ⟨hw.op, (bits_ofBits _).symm, (bits_ofBits _).symm, hw.flt rfl, hw.fam rfl, hw.n rfl,
      hw.imm rfl⟩
  | esg96 | esg198 | ess96 =>
    cases h
    exact wordOf_eq_iff.mpr ⟨hw.op, hw.ta rfl, hw.tb rfl, rfl, hw.fam rfl, hw.n rfl, hw.imm rfl⟩

/-- DECP alone needs a condition beside its row (R62 condition (c)). -/
theorem exists_operands {o : Opcode} {w : Word} (h : o = .decp → TReg.ofBits (fieldTa w) ≠ TReg.ofBits (fieldTb w)) :
    ∃ i, operands o w = .ok i := by
  cases o with
  | decp => exact ⟨_, operands_decp_eq_ok.mpr ⟨h rfl, rfl⟩⟩
  | _ => exact ⟨_, rfl⟩

/-! ### The decoder (R62) -/

/-- A word is legal for a command exactly when it matches the command's row and its operands are the command's. -/
theorem decode_eq_ok {w : Word} {i : Instr} :
    decode w = .ok i ↔ w &&& i.opcode.mask = i.opcode.pattern ∧ operands i.opcode w = .ok i := by
  constructor
  · intro h
    unfold decode at h
    split at h
    · cases h
    · next o ho =>
      split at h
      · next hrow =>
        obtain rfl := opcode_of_operands h
        exact ⟨hrow, h⟩
      · cases h
  · rintro ⟨hrow, hi⟩
    rw [decode, (matchesRow_of_and hrow).op, ofByte_byte]
    exact (if_pos hrow).trans hi

/-- Settles O21, by `encode_of_operands`. -/
theorem encodeDecodeRoundTrip : Obligations.EncodeDecodeRoundTrip := by
  intro w i h
  obtain ⟨hrow, hi⟩ := decode_eq_ok.mp h
  exact ⟨wellFormed_of_operands hi, encode_of_operands (matchesRow_of_and hrow) hi⟩

/-! ### The encoder (R61, R63) -/

/-- The word of every command matches its row. -/
theorem encode_and_mask (i : Instr) : encode i &&& i.opcode.mask = i.opcode.pattern := by
  cases i with
  | rst => exact Laws.RowMatch.rst
  | clr => exact Laws.RowMatch.clr
  | rew => exact Laws.RowMatch.rew
  | enci ta n => exact Laws.RowMatch.enci ta n
  | encii imm n => exact Laws.RowMatch.encii imm n
  | deci ta n => exact Laws.RowMatch.deci ta n
  | encs ta n => exact Laws.RowMatch.encs ta n
  | decs ta n => exact Laws.RowMatch.decs ta n
  | b2h ta => exact Laws.RowMatch.b2h ta
  | h2b ta n => exact Laws.RowMatch.h2b ta n
  | encp fam ta tb => exact Laws.RowMatch.encp fam ta tb
  | decp fam ta tb => exact Laws.RowMatch.decp fam ta tb
  | chk ta tb => exact Laws.RowMatch.chk ta tb
  | esg96 flt => exact Laws.RowMatch.esg96 flt
  | esg198 flt => exact Laws.RowMatch.esg198 flt
  | ess96 flt => exact Laws.RowMatch.ess96 flt
  | dsg => exact Laws.RowMatch.dsg
  | dss => exact Laws.RowMatch.dss

theorem toNat_ofNat_byte {v : Nat} (h : fitsByte v = true) : (BitVec.ofNat 8 v).toNat = v :=
  Nat.mod_eq_of_lt (of_decide_eq_true h)

/-- The operands written are the operands read: each sits in a field of its own that is wide enough for it. -/
theorem operands_encode {i : Instr} (h : i.wellFormed = true) : operands i.opcode (encode i) = .ok i := by
  cases i with
  | rst | clr | rew | dsg | dss => rfl
  | enci ta n | deci ta n | encs ta n | decs ta n | h2b ta n =>
    simp [operands, encode, Instr.opcode, fieldTa_wordOf, fieldN_wordOf, ofBits_bits, toNat_ofNat_byte h]
  | encii imm n =>
    obtain ⟨himm, hn⟩ := Bool.and_eq_true_iff.mp h
    simp [operands, encode, Instr.opcode, fieldImm_wordOf, fieldN_wordOf, toNat_ofNat_byte himm, toNat_ofNat_byte hn]
  | b2h ta => simp [operands, encode, Instr.opcode, fieldTa_wordOf, ofBits_bits]
  | encp fam ta tb | chk ta tb =>
    simp [operands, encode, Instr.opcode, fieldTa_wordOf, fieldTb_wordOf, fieldFam_wordOf, ofBits_bits, ofBit_bit]
  | decp fam ta tb =>
    have hne : ta ≠ tb := of_decide_eq_true h
    simp [operands, encode, Instr.opcode, fieldTa_wordOf, fieldTb_wordOf, fieldFam_wordOf, ofBits_bits, ofBit_bit, hne]
  | esg96 flt | esg198 flt | ess96 flt => simp [operands, encode, Instr.opcode, fieldFlt_wordOf]

/-- Settles O20: the word of a command matches the command's row, and its operands read back. -/
theorem decodeEncodeRoundTrip : Obligations.DecodeEncodeRoundTrip := fun i h =>
  decode_eq_ok.mpr ⟨encode_and_mask i, operands_encode h⟩

theorem bits_toNat (r : TReg) : r.bits.toNat = regNumber r := by cases r <;> rfl

theorem bit_toNat (f : Family) : f.bit.toNat = famNumber f := by cases f <;> rfl

/-- Settles O19, by the sum of `wordOf`. -/
theorem encodedWordIsTheFieldSum : Obligations.EncodedWordIsTheFieldSum := by
  intro i h
  cases i with
  | rst | clr | rew | dsg | dss => rfl
  | enci ta n | deci ta n | encs ta n | decs ta n | h2b ta n =>
    rw [encode, wordOf_toNat, bits_toNat, toNat_ofNat_byte h]; rfl
  | encii imm n =>
    obtain ⟨himm, hn⟩ := Bool.and_eq_true_iff.mp h
    rw [encode, wordOf_toNat, toNat_ofNat_byte himm, toNat_ofNat_byte hn]; rfl
  | b2h ta => rw [encode, wordOf_toNat, bits_toNat]; rfl
  | encp fam ta tb | decp fam ta tb => rw [encode, wordOf_toNat, bits_toNat, bits_toNat, bit_toNat]; rfl
  | chk ta tb => rw [encode, wordOf_toNat, bits_toNat, bits_toNat]; rfl
  | esg96 flt | esg198 flt | ess96 flt => rw [encode, wordOf_toNat]; rfl

/-! ### The opcode map (R63) -/

/-- The rows of the map are the 18 opcodes, each with its mnemonic, match and mask. -/
theorem mem_opcodeMap {r : String × Word × Word} :
    r ∈ opcodeMap ↔ ∃ o : Opcode, (o.mnemonic, o.pattern, o.mask) = r := by
  have hmap : opcodeMap = Opcode.all.map fun o => (o.mnemonic, o.pattern, o.mask) := by decide
  have hall : ∀ o, o ∈ Opcode.all := by intro o; cases o <;> decide
  simp [hmap, hall]

theorem mnemonic_eq_decp_iff {o : Opcode} : o.mnemonic = "DECP" ↔ o = .decp := by cases o <;> decide

theorem registersDiffer_iff {w : Word} : registersDiffer w ↔ TReg.ofBits (fieldTa w) ≠ TReg.ofBits (fieldTb w) := by
  have hinj : TReg.ofBits (fieldTa w) = TReg.ofBits (fieldTb w) ↔ fieldTa w = fieldTb w :=
    (Function.LeftInverse.injective bits_ofBits).eq_iff
  rw [registersDiffer, Ne, Ne, hinj, ← BitVec.toNat_inj, fieldTa, fieldTb, BitVec.extractLsb'_toNat,
    BitVec.extractLsb'_toNat, Nat.shiftRight_eq_div_pow, Nat.shiftRight_eq_div_pow]

/-- Settles O18: `decode_eq_ok` says which row a legal word matches, `exists_operands` that a word of a row is legal. -/
theorem legalWordsAreTheOpcodeMap : Obligations.LegalWordsAreTheOpcodeMap := by
  refine ⟨fun w i h => ?_, fun w r hr hrow hdiff => ?_⟩
  · obtain ⟨hrow, hi⟩ := decode_eq_ok.mp h
    refine ⟨_, mem_opcodeMap.mpr ⟨i.opcode, rfl⟩, rfl, hrow, fun hm => ?_⟩
    rw [mnemonic_eq_decp_iff.mp hm] at hi
    exact registersDiffer_iff.mpr (operands_decp_eq_ok.mp hi).1
  · obtain ⟨o, rfl⟩ := mem_opcodeMap.mp hr
    obtain ⟨i, hi⟩ := exists_operands fun ho => registersDiffer_iff.mp (hdiff (mnemonic_eq_decp_iff.mpr ho))
    obtain rfl := opcode_of_operands hi
    exact ⟨i, decode_eq_ok.mpr ⟨hrow, hi⟩, rfl⟩

/-- Settles O17, by running the decoder on the words. -/
theorem specWordsDecode : Obligations.SpecWordsDecode := by
  unfold Obligations.SpecWordsDecode
  decide

end Sys2Proof
end

section
/-! PROOFS. A composite encode and the primitive commands that build its frame (45_frames R162, R163, R165; 30_encoding
R70 to R72). -/

namespace Sys2Proof.Machine

open Sys2Proof.Spec

/-! ### The appending commands where they do not fail (40_integer R102, R103; 41_string R112; 43_partition R137) -/

section
variable {s : State}

theorem exec_encii_of_le {imm n : Nat} (himm : imm < 2 ^ n) (hcap : s.fb.length + n ≤ s.cfg.fbcap) :
    exec (.encii imm n) s = .next (s.memAppend (bitsOf imm n)) := by
  change execEncii imm n s = _
  rw [execEncii, encInt_of_lt himm, ok_bind, tryAppend_of_le (by rwa [bitsOf_length]), commit_ok]

theorem exec_enci_of_le {ta : TReg} {n : Nat} (hds : s.getT ta ≠ [] ∧ isDigits (s.getT ta) = true)
    (hv : intValue (s.getT ta) < 2 ^ n) (hcap : s.fb.length + n ≤ s.cfg.fbcap) :
    exec (.enci ta n) s = .next (s.memAppend (bitsOf (intValue (s.getT ta)) n)) := by
  change execEnci ta n s = _
  simp only [execEnci, require_pos hds, encInt_of_lt hv, ok_bind]
  rw [tryAppend_of_le (by rwa [bitsOf_length]), commit_ok]

theorem exec_encs_of_le {ta : TReg} {n : Nat} {b : Bits} (hb : encStr (s.getT ta) n = .ok b)
    (hcap : s.fb.length + b.length ≤ s.cfg.fbcap) : exec (.encs ta n) s = .next (s.memAppend b) := by
  change execEncs ta n s = _
  rw [execEncs, hb, ok_bind, tryAppend_of_le hcap, commit_ok]

theorem exec_encp_of_le {fam : Family} {ta tb : TReg} {b : Bits}
    (hb : encPart s.cfg fam (s.getT ta) (s.getT tb) = .ok b) (hcap : s.fb.length + b.length ≤ s.cfg.fbcap) :
    exec (.encp fam ta tb) s = .next (s.memAppend b) := by
  change execEncp fam ta tb s = _
  rw [execEncp, hb, ok_bind, tryAppend_of_le hcap, commit_ok]

theorem runAll_cons {i : Instr} {is : List Instr} {u : State} (h : exec i s = .next u) :
    runAll (i :: is) s = runAll is u := by
  rw [runAll, h]

/-! ### The frame built field by field (R162, R163, R165) -/

/-- A command that leaves no error in ST did not raise (60_exceptions R205). -/
theorem good_of_raisedOr {o : Opcode} {t : State} {good : Prop} (h : RaisedOr o s t good) (ht : stErr t.st = 0) :
    good := by
  obtain ⟨e, rfl⟩ | h := h
  · exact absurd ht (State.frozen_iff.mp (s.raise_frozen o.byte e))
  · exact h

theorem encPart_of_encSeg {c : Config} {fam : Family} {f1 f2 : Text} {b : Bits} (h : encSeg c fam f1 f2 = .ok b) :
    encPart c fam f1 f2 = .ok b := by
  obtain ⟨_, _, _, _, h⟩ := encSeg_eq_ok.mp h
  exact h

/-- With the serial `t` in T2 the command appends `b` to any frame buffer that has room for it. -/
def AppendsLast (i : Instr) (t : Text) (b : Bits) : Prop :=
  ∀ u : State, u.t2 = t → u.fb.length + b.length ≤ u.cfg.fbcap → exec i u = .next (u.memAppend b)

/-- What the three composite encodes share: CLR, then header, filter, segment and the last field appended one after
another, then B2H into T3. The frame has at most the 198 bits that FB holds at least (00_scope R5). -/
theorem runAll_frame {header : Nat} {flt : BitVec 3} {fam : Family} {seg last : Bits} {i : Instr}
    (hc : s.cfg.wf = true) (hh : header < 2 ^ 8) (hseg : encSeg s.cfg fam s.t0 s.t1 = .ok seg)
    (hlast : 11 + famTotal fam + last.length ≤ 198) (hi : AppendsLast i s.t2 last) :
    runAll [.clr, .encii header 8, .encii flt.toNat 3, .encp fam .t0 .t1, i, .b2h .t3] s =
      .next (s.emitFrame (bitsOf header 8 ++ bitsOf flt.toNat 3 ++ seg ++ last)) := by
  obtain ⟨hfb, _⟩ := Config.wf_caps hc
  have hlen := encSeg_length hc hseg
  have hclr : exec .clr s = .next (s.loadFrame [] 0) := rfl
  rw [runAll_cons hclr, runAll_cons (exec_encii_of_le hh ?_), runAll_cons (exec_encii_of_le flt.isLt ?_),
    runAll_cons (exec_encp_of_le (encPart_of_encSeg hseg) ?_), runAll_cons (hi _ ?_ ?_)]
  · rfl
  · rfl
  all_goals
    simp only [State.memAppend_fb, State.memAppend_cfg, State.loadFrame_fb, State.loadFrame_cfg, List.length_append,
      bitsOf_length, List.length_nil]
    omega

theorem numeral_of_validSerial96 {t : Text} (h : validSerial96 t = true) : Numeral t := by
  simp only [validSerial96, Bool.and_eq_true, decide_eq_true_eq] at h
  obtain ⟨⟨⟨hne, hd⟩, _⟩, _⟩ := h
  exact ⟨hne, hd⟩

end

/-! ### The three composite encodes -/

theorem runAll_primitives_esg96 {flt : BitVec 3} {s t : State} (hc : s.cfg.wf = true)
    (h : exec (.esg96 flt) s = .next t) (ht : stErr t.st = 0) : runAll (primitives (.esg96 flt)) s = .next t := by
  obtain ⟨hvalid, seg, hseg, hv, rfl⟩ := good_of_raisedOr (exec_esg96_next h) ht
  refine runAll_frame hc (by decide) hseg (by rw [bitsOf_length]; decide) fun u hu hcap => ?_
  rw [bitsOf_length] at hcap
  rw [← hu] at hvalid hv ⊢
  exact exec_enci_of_le (numeral_of_validSerial96 hvalid) hv hcap

theorem runAll_primitives_esg198 {flt : BitVec 3} {s t : State} (hc : s.cfg.wf = true)
    (h : exec (.esg198 flt) s = .next t) (ht : stErr t.st = 0) : runAll (primitives (.esg198 flt)) s = .next t := by
  obtain ⟨seg, ser, hseg, hser, rfl⟩ := good_of_raisedOr (exec_esg198_next h) ht
  refine runAll_frame hc (by decide) hseg (by rw [encStr_length hser]; decide) fun u hu hcap => ?_
  rw [← hu] at hser
  exact exec_encs_of_le hser hcap

theorem runAll_primitives_ess96 {flt : BitVec 3} {s t : State} (hc : s.cfg.wf = true)
    (h : exec (.ess96 flt) s = .next t) (ht : stErr t.st = 0) : runAll (primitives (.ess96 flt)) s = .next t := by
  obtain ⟨_, seg, hseg, rfl⟩ := good_of_raisedOr (exec_ess96_next h) ht
  refine runAll_frame hc (by decide) hseg (by rw [zeros_length]; decide) fun u _ hcap => ?_
  rw [zeros_length] at hcap
  rw [← bitsOf_zero]
  exact exec_encii_of_le (by decide) hcap

/-- Settles O51: in each of the three the bits that the primitives append one after another are the frame that the
composite loads whole. -/
theorem compositeEncodesEqualPrimitives : Obligations.CompositeEncodesEqualPrimitives := by
  intro flt s t hc i hi h ht
  simp only [List.mem_cons, List.not_mem_nil, or_false] at hi
  obtain rfl | rfl | rfl := hi
  · exact runAll_primitives_esg96 hc h ht
  · exact runAll_primitives_esg198 hc h ht
  · exact runAll_primitives_ess96 hc h ht

end Sys2Proof.Machine
end

section
/-! PROOFS. The integer unit: the three commands, each failure in its order and then the effect (40_integer R102 to R104),
and the laws of the encoding (R105). -/

namespace Sys2Proof.Machine

open Sys2Proof.Spec

section
variable {s : State} {n : Nat}

/-! ### A command that raises, in the numbers of the spec (60_exceptions R205) -/

theorem failsWith_of_raise {i : Instr} (o : Opcode) (e : Cause) (h : exec i s = .next (s.raise o.byte e)) :
    FailsWith i s o.byte.toNat e.code.toNat e.cls.toNat :=
  h.trans (congrArg _ (s.raise_eq_statusOf o.byte e))

/-! ### ENCI and ENCII where they fail (R102, R103); where they do not, `exec_enci_of_le` and `exec_encii_of_le` -/

/-- A value that does not fit fails before the space is looked at. -/
theorem encInt_tryAppend_of_le {v : Nat} (hv : 2 ^ n ≤ v) : (encInt v n >>= s.tryAppend) = .error .eNofit := by
  rw [encInt_of_le hv, error_bind]

theorem encInt_tryAppend_of_full {v : Nat} (hv : v < 2 ^ n) (hcap : s.cfg.fbcap < s.fb.length + n) :
    (encInt v n >>= s.tryAppend) = .error .eFbfull := by
  rw [encInt_of_lt hv, ok_bind, tryAppend_of_lt (by rwa [bitsOf_length])]

theorem exec_enci_of_not_numeral {ta : TReg} (h : ¬ Numeral (s.getT ta)) :
    exec (.enci ta n) s = .next (s.raise Opcode.enci.byte .eNonnum) := by
  change execEnci ta n s = _
  simp only [execEnci, require_neg h, error_bind, commit_error]

/-- With a numeral in its register ENCI is one conversion and one append, as ENCII is. -/
theorem exec_enci_of_numeral {ta : TReg} (h : Numeral (s.getT ta)) :
    exec (.enci ta n) s = commit .enci s (encInt (intValue (s.getT ta)) n >>= s.tryAppend) := by
  change execEnci ta n s = _
  simp only [execEnci, require_pos h, ok_bind]

theorem exec_encii (imm : Nat) : exec (.encii imm n) s = commit .encii s (encInt imm n >>= s.tryAppend) := rfl

/-! ### DECI where it fails (R104); where it does not, `exec_deci_of_le` -/

theorem exec_deci_zero (ta : TReg) : exec (.deci ta 0) s = .next (s.raise Opcode.deci.byte .dEmpty) := rfl

theorem exec_deci_of_lt {ta : TReg} (hn : 1 ≤ n) (hlen : s.fb.length < s.rc + n) :
    exec (.deci ta n) s = .next (s.raise Opcode.deci.byte .dLen) := by
  change execDeci ta n s = _
  rw [execDeci, require_pos hn, ok_bind, require_neg (Nat.not_le.mpr hlen), error_bind, commit_error]

/-- `decInt` writes the shortest decimal (00_scope R11, 40_integer R101). -/
theorem shortest_decInt (b : Bits) : Shortest (uint b) (decInt b) :=
  ⟨⟨dec_ne_nil _, isDigits_dec _⟩, intValue_decInt b, dec_head _⟩

end

/-! ### The obligations -/

/-- Settles O24: without a numeral the first test raises, and with one the command is `encInt` and an append. -/
theorem enciAppendsNumber : Obligations.EnciAppendsNumber := by
  intro ta n s
  refine ⟨fun hds => ?_, fun hds hv => ?_, fun hds hv hcap => ?_, fun hds hv hcap => ?_⟩
  · exact failsWith_of_raise .enci .eNonnum (exec_enci_of_not_numeral hds)
  · refine failsWith_of_raise .enci .eNofit ?_
    rw [exec_enci_of_numeral hds, encInt_tryAppend_of_le hv, commit_error]
  · refine failsWith_of_raise .enci .eFbfull ?_
    rw [exec_enci_of_numeral hds, encInt_tryAppend_of_full hv hcap, commit_error]
  · exact ⟨_, bitsOf_length _ n, uint_bitsOf_of_lt hv, exec_enci_of_le hds hv hcap⟩

/-- Settles O25: the command is `encInt` and an append. -/
theorem enciiAppendsImmediate : Obligations.EnciiAppendsImmediate := by
  intro imm n s
  refine ⟨fun hv => ?_, fun hv hcap => ?_, fun hv hcap => ?_⟩
  · refine failsWith_of_raise .encii .eNofit ?_
    rw [exec_encii, encInt_tryAppend_of_le hv, commit_error]
  · refine failsWith_of_raise .encii .eFbfull ?_
    rw [exec_encii, encInt_tryAppend_of_full hv hcap, commit_error]
  · exact ⟨_, bitsOf_length imm n, uint_bitsOf_of_lt hv, exec_encii_of_le hv hcap⟩

/-- Settles O26: the two failures in order, then the shortest decimal of the field at the cursor. -/
theorem deciReadsNumber : Obligations.DeciReadsNumber := by
  intro ta n s
  refine ⟨?_, fun hn hlen => ?_, fun hn hlen => ?_⟩
  · rintro rfl
    exact failsWith_of_raise .deci .dEmpty (exec_deci_zero ta)
  · exact failsWith_of_raise .deci .dLen (exec_deci_of_lt hn hlen)
  · exact ⟨_, shortest_decInt _, exec_deci_of_le hn hlen⟩

/-- Settles O27: both ways round it is `intValue_decInt` between `uint` and `bitsOf`, which are inverse to one another on
values below `2^n` and strings of `n` bits. -/
theorem integerRoundTrips : Obligations.IntegerRoundTrips := by
  refine ⟨fun v n hv => ?_, fun v n hv => encInt_of_le hv, fun b _ => ?_⟩
  · have hval : uint (bitsOf v n) = v := uint_bitsOf_of_lt hv
    exact ⟨_, encInt_of_lt hv, bitsOf_length v n, hval, fun _ => (intValue_decInt _).trans hval⟩
  · rw [intValue_decInt, encInt_of_lt (uint_lt b), bitsOf_uint]

end Sys2Proof.Machine
end

section
/-! PROOFS. The string unit: ENCS and DECS, each failure in its order and then the effect (41_string R112, R113), and what
the codec loses (R114). -/

namespace Sys2Proof.Machine

open Sys2Proof.Spec

/-! ### The packed field (R110) -/

theorem encStr_of_le {t : Text} {n : Nat} (h : t.length ≤ n / 7) :
    encStr t n = .ok (packChars t ++ zeros (n - 7 * t.length)) := if_pos h

theorem encStr_of_lt {t : Text} {n : Nat} (h : n / 7 < t.length) : encStr t n = .error .eStrlen :=
  if_neg (Nat.not_le.mpr h)

theorem holds_packChars (t : Text) (k : Nat) : Holds (packChars t ++ zeros k) 0 t := by
  constructor
  · intro i c hc
    rw [Nat.zero_add, field, slice_packChars t _ i c hc, uint_bitsOf_of_lt c.isLt]
  · intro k hk hlt
    have hpack : (packChars t).length ≤ k := by rw [packChars_length]; omega
    rw [List.length_append, zeros_length] at hlt
    rw [List.getElem?_append_right hpack, zeros, List.getElem?_replicate_of_lt (by omega)]

/-! ### The unpacked characters (R111) -/

theorem decStr_eq_filter (b : Bits) : decStr b = (groups7 b).filter fun c => c ≠ 0 :=
  List.filter_congr fun _ _ => by rw [decide_not, ← beq_eq_decide, bne]

/-- The groups of a field of whole groups, one number each. -/
theorem groups7_slice {x : Bits} {a k : Nat} (h : a + 7 * k ≤ x.length) :
    groups7 (slice x a (7 * k)) = (List.range k).map fun i => BitVec.ofNat 7 (field x (a + 7 * i) 7) := by
  induction k generalizing a with
  | zero => rfl
  | succ k ih =>
    have hsplit : slice x a (7 * (k + 1)) = slice x a 7 ++ slice x (a + 7) (7 * k) := by
      rw [← slice_add, Nat.mul_succ, Nat.add_comm]
    have hshift : ∀ i, a + 7 + 7 * i = a + 7 * (i + 1) := fun i => by omega
    rw [hsplit, groups7_append _ _ (slice_length (by omega)), ih (by omega), List.range_succ_eq_map, List.map_cons,
      List.map_map]
    simp only [hshift]
    rfl

theorem decStr_slice {x : Bits} {a k : Nat} (h : a + 7 * k ≤ x.length) :
    decStr (slice x a (7 * k)) = characters x a k := by
  rw [decStr_eq_filter, groups7_slice h, characters]

/-- Unpacking drops the padding, and with it every character of code 0 (R114). -/
theorem decStr_packChars (t : Text) (k : Nat) : decStr (packChars t ++ zeros (7 * k)) = t.filter fun c => c ≠ 0 := by
  have hpad : (List.replicate k (0 : Char7)).filter (fun c => c ≠ 0) = [] := by simp
  rw [decStr_eq_filter, groups7_packChars, List.filter_append, hpad, List.append_nil]

/-! ### ENCS and DECS (R112, R113); ENCS where it does not fail is `exec_encs_of_le` -/

section
variable {s : State} {ta : TReg} {n : Nat}

theorem exec_encs_of_long (h : n / 7 < (s.getT ta).length) :
    exec (.encs ta n) s = .next (s.raise Opcode.encs.byte .eStrlen) := by
  change execEncs ta n s = _
  rw [execEncs, encStr_of_lt h, error_bind, commit_error]

theorem exec_encs_of_full {b : Bits} (hb : encStr (s.getT ta) n = .ok b) (hcap : s.cfg.fbcap < s.fb.length + n) :
    exec (.encs ta n) s = .next (s.raise Opcode.encs.byte .eFbfull) := by
  change execEncs ta n s = _
  rw [execEncs, hb, ok_bind, tryAppend_of_lt (by rwa [encStr_length hb]), commit_error]

theorem exec_decs_of_partial_group (hn : n % 7 ≠ 0) :
    exec (.decs ta n) s = .next (s.raise Opcode.decs.byte .dGroup) := by
  change execDecs ta n s = _
  rw [execDecs, require_neg hn, error_bind, commit_error]

theorem exec_decs_of_lt (hn : n % 7 = 0) (hlen : s.fb.length < s.rc + n) :
    exec (.decs ta n) s = .next (s.raise Opcode.decs.byte .dLen) := by
  change execDecs ta n s = _
  rw [execDecs, require_pos hn, ok_bind, require_neg (Nat.not_le.mpr hlen), error_bind, commit_error]

theorem exec_decs_of_le (hn : n % 7 = 0) (hlen : s.rc + n ≤ s.fb.length) :
    exec (.decs ta n) s = .next ((s.setT ta (decStr (s.memRead s.rc n))).setRC (s.rc + n)) := by
  change execDecs ta n s = _
  rw [execDecs, require_pos hn, ok_bind, require_pos hlen, ok_bind, pure_eq_ok, commit_ok]

end

/-! ### The obligations -/

/-- Settles O29: the length test comes first, and what passes it is packed and appended. -/
theorem encsPacksString : Obligations.EncsPacksString := by
  intro ta n s
  refine ⟨fun hlong => ?_, fun hfit hcap => ?_, fun hfit hcap => ?_⟩
  · exact failsWith_of_raise .encs .eStrlen (exec_encs_of_long hlong)
  · exact failsWith_of_raise .encs .eFbfull (exec_encs_of_full (encStr_of_le hfit) hcap)
  · have hb := encStr_of_le hfit
    have hlen := encStr_length hb
    exact ⟨_, hlen, holds_packChars _ _, exec_encs_of_le hb (by rwa [hlen])⟩

/-- Settles O30: the two failures in order, then the groups of the slice at the cursor less the zero ones. -/
theorem decsUnpacksString : Obligations.DecsUnpacksString := by
  intro ta n s
  refine ⟨fun hn => ?_, fun hn hlen => ?_, fun hn hlen => ?_⟩
  · exact failsWith_of_raise .decs .dGroup (exec_decs_of_partial_group hn)
  · exact failsWith_of_raise .decs .dLen (exec_decs_of_lt hn hlen)
  · have hgroups : 7 * (n / 7) = n := Nat.mul_div_cancel' (Nat.dvd_of_mod_eq_zero hn)
    have htext : decStr (s.memRead s.rc n) = characters s.fb s.rc (n / 7) := by
      rw [State.memRead, ← decStr_slice (by rwa [hgroups]), hgroups]
    rw [exec_decs_of_le hn hlen, htext]
    rfl

/-- Settles O31: a filter gives the string back exactly when it keeps every character. -/
theorem stringRoundTrip : Obligations.StringRoundTrip := by
  intro t n hn hfit
  have hpad : n - 7 * t.length = 7 * (n / 7 - t.length) := by omega
  have hdec : decStr (packChars t ++ zeros (n - 7 * t.length)) = t.filter fun c => c ≠ 0 := by
    rw [hpad, decStr_packChars]
  refine ⟨_, encStr_of_le hfit, hdec, ?_, ?_⟩
  · intro hnz
    rw [hdec, List.filter_eq_self]
    simpa using hnz
  · rintro ⟨c, hc, hzero⟩
    rw [hdec, Ne, List.filter_eq_self]
    exact fun hall => of_decide_eq_true (hall c hc) hzero

end Sys2Proof.Machine
end

section
/-! PROOFS. The hex unit: B2H and H2B, each failure in its order and then the effect (42_hex R122, R123), and what the
two conversions lose (R124). -/

namespace Sys2Proof.Machine

open Sys2Proof.Spec

/-! ### The sixteen digits (R120, R121) -/

theorem hexDigits_getElem? {v : Nat} (h : v < 16) : hexDigits[v]? = some (hexDigit v) := by
  interval_cases v <;> rfl

theorem mem_hexDigits_iff (c : Char7) : c ∈ hexDigits ↔ isHexDigit c = true := by
  revert c; decide

theorem hexText_iff {h : Text} : HexText h ↔ isHex h = true := by
  simp only [HexText, mem_hexDigits_iff, isHex, List.all_eq_true]

/-! ### Bits to text (R120) -/

/-- The bits are padded to whole groups, with no more zeros than the three that `HexOf` supplies. -/
theorem slice_zero_padded {b : Bits} {k r : Nat} (hr : r ≤ 3) (hk : 4 * k + 4 ≤ b.length + r) :
    slice (b ++ zeros 3) (4 * k) 4 = slice (b ++ zeros r) (4 * k) 4 := by
  have hsplit : zeros 3 = zeros r ++ zeros (3 - r) := by
    rw [zeros, zeros, zeros, List.replicate_append_replicate, Nat.add_sub_cancel' hr]
  rw [hsplit, ← List.append_assoc, slice_append_left (by rwa [List.length_append, zeros_length])]

theorem hexOf_binToHex (b : Bits) : HexOf b (binToHex b) := by
  refine ⟨binToHex_length b, fun k hk => ?_⟩
  rw [binToHex_length] at hk
  have hgroup : 4 * k + 4 ≤ b.length + (4 - b.length % 4) % 4 := by omega
  have hlen : 4 * k + 4 ≤ (b ++ zeros ((4 - b.length % 4) % 4)).length := by rwa [List.length_append, zeros_length]
  rw [slice_zero_padded (by omega) hgroup, hexDigits_getElem? (uint_lt_sixteen _ (slice_length hlen)), binToHex,
    hexGroups_getElem? _ _ hlen]

/-! ### Text to bits (R121) -/

theorem hexToBin_of_le {h : Text} {n : Nat} (hh : isHex h = true) (hn : n ≤ 4 * h.length) :
    hexToBin h n = .ok ((hexExpand h).take n) :=
  hexToBin_eq_ok.mpr ⟨hh, hn, rfl⟩

theorem spells_take_hexExpand {h : Text} (hh : isHex h = true) (n : Nat) : Spells h ((hexExpand h).take n) := by
  intro k hk
  rw [List.length_take, hexExpand_length, lt_min_iff] at hk
  obtain ⟨hkn, hk⟩ := hk
  have hc : h[k / 4]? = some h[k / 4] := List.getElem?_eq_getElem (by omega)
  have hdigit : isHexDigit h[k / 4] = true := List.all_eq_true.mp hh _ (List.getElem_mem _)
  refine ⟨hexVal h[k / 4], hexVal_lt hdigit, ?_, ?_⟩
  · rw [hexDigits_getElem? (hexVal_lt hdigit), hexDigit_hexVal hdigit, hc]
  · rw [List.getElem?_take_of_lt hkn, hexExpand_getElem? h k _ hc]

/-! ### There and back (R124) -/

theorem isHex_binToHex (b : Bits) : isHex (binToHex b) = true := isHex_hexGroups _

/-- Reading back what was written gives the bits and the padding. -/
theorem hexExpand_binToHex (b : Bits) : hexExpand (binToHex b) = b ++ zeros ((4 - b.length % 4) % 4) :=
  hexExpand_hexGroups _ (by rw [List.length_append, zeros_length]; omega)

theorem hexExpand_inj {h h' : Text} (hh : isHex h = true) (hh' : isHex h' = true) :
    hexExpand h = hexExpand h' ↔ h = h' := by
  refine ⟨fun heq => ?_, congrArg hexExpand⟩
  rw [← hexGroups_hexExpand h hh, heq, hexGroups_hexExpand h' hh']

/-- Of a text just long enough for `n` bits, the first `n` bits give the text back exactly when the bits after them are
the zeros that padding would put there. -/
theorem binToHex_take_eq_iff {h : Text} {n : Nat} (hh : isHex h = true) (hlen : h.length = (n + 3) / 4) :
    binToHex ((hexExpand h).take n) = h ↔ ∀ x ∈ (hexExpand h).drop n, x = false := by
  have hfirst : ((hexExpand h).take n).length = n := by
    rw [List.length_take, hexExpand_length]; omega
  have hrest : ((hexExpand h).drop n).length = (4 - n % 4) % 4 := by
    rw [List.length_drop, hexExpand_length]; omega
  calc binToHex ((hexExpand h).take n) = h
    _ ↔ (hexExpand h).take n ++ zeros ((4 - n % 4) % 4) = (hexExpand h).take n ++ (hexExpand h).drop n := by
      rw [← hexExpand_inj (isHex_binToHex _) hh, hexExpand_binToHex, hfirst, List.take_append_drop]
    _ ↔ (hexExpand h).drop n = zeros ((4 - n % 4) % 4) := by rw [List.append_cancel_left_eq, eq_comm]
    _ ↔ ∀ x ∈ (hexExpand h).drop n, x = false := by rw [zeros, List.eq_replicate_iff, and_iff_right hrest]

/-! ### B2H and H2B (R122, R123) -/

section
variable {s : State} {ta : TReg} {n : Nat}

theorem exec_b2h (ta : TReg) (s : State) : exec (.b2h ta) s = .next (s.setT ta (binToHex s.fb)) := rfl

theorem exec_h2b_of_not_hex (hh : ¬ isHex (s.getT ta) = true) :
    exec (.h2b ta n) s = .next (s.raise Opcode.h2b.byte .dHexchar) := by
  change execH2b ta n s = _
  simp only [execH2b, require_neg hh, error_bind, commit_error]

theorem exec_h2b_of_lt (hh : isHex (s.getT ta) = true) (hn : s.cfg.fbcap < n ∨ 4 * (s.getT ta).length < n) :
    exec (.h2b ta n) s = .next (s.raise Opcode.h2b.byte .dLen) := by
  have hlen : ¬ (n ≤ s.cfg.fbcap ∧ n ≤ 4 * (s.getT ta).length) := by omega
  change execH2b ta n s = _
  simp only [execH2b, require_pos hh, ok_bind, require_neg hlen, error_bind, commit_error]

theorem exec_h2b_of_le (hh : isHex (s.getT ta) = true) (hcap : n ≤ s.cfg.fbcap) (hlen : n ≤ 4 * (s.getT ta).length) :
    exec (.h2b ta n) s = .next (s.loadFrame ((hexExpand (s.getT ta)).take n) 0) := by
  change execH2b ta n s = _
  simp only [execH2b, require_pos hh, ok_bind, require_pos (And.intro hcap hlen), hexToBin_of_le hh hlen, pure_eq_ok,
    commit_ok]

end

/-! ### The obligations -/

/-- Settles O32: the text written is `binToHex` of the frame buffer. -/
theorem b2hWritesHexText : Obligations.B2hWritesHexText := fun ta s =>
  ⟨binToHex s.fb, hexOf_binToHex s.fb, exec_b2h ta s⟩

/-- Settles O33: the two failures in order, then the first `n` bits of the expansion. -/
theorem h2bLoadsBuffer : Obligations.H2bLoadsBuffer := by
  intro ta n s
  simp only [hexText_iff]
  refine ⟨fun hh => ?_, fun hh hn => ?_, fun hh hcap hlen => ?_⟩
  · exact failsWith_of_raise .h2b .dHexchar (exec_h2b_of_not_hex hh)
  · exact failsWith_of_raise .h2b .dLen (exec_h2b_of_lt hh hn)
  · exact ⟨_, hexToBin_length (hexToBin_of_le hh hlen), spells_take_hexExpand hh n, exec_h2b_of_le hh hcap hlen⟩

/-- Settles O34: the bits read back are those written without their padding, and a text comes back exactly when the bits
dropped from it were padding. -/
theorem hexRoundTrips : Obligations.HexRoundTrips := by
  refine ⟨fun b => ?_, fun h n hh hlen hzero => ?_, fun h n hh hlen hone => ?_⟩
  · have hlen : b.length ≤ 4 * (binToHex b).length := by rw [binToHex_length]; omega
    rw [hexToBin_of_le (isHex_binToHex b) hlen, hexExpand_binToHex, List.take_left]
  · have hh' := hexText_iff.mp hh
    exact ⟨_, hexToBin_of_le hh' (by omega), (binToHex_take_eq_iff hh' hlen).mpr hzero⟩
  · have hh' := hexText_iff.mp hh
    obtain ⟨x, hx, htrue⟩ := hone
    refine ⟨_, hexToBin_of_le hh' (by omega), fun heq => ?_⟩
    have hfalse := (binToHex_take_eq_iff hh' hlen).mp heq x hx
    exact Bool.false_ne_true (hfalse.symm.trans htrue)

end Sys2Proof.Machine
end

section
/-! PROOFS. The partition unit: the selection of an entry (43_partition R134), ENCP and DECP, each failure in its order and
then the effect (R137, R138), and the round trip of a segment (R139). -/

namespace Sys2Proof.Machine

open Sys2Proof.Spec

/-! ### The entries of an allowed configuration (R130, R134) -/

theorem famTotal_eq (fam : Family) : famTotal fam = if fam = .sgtin then 47 else 61 := by cases fam <;> rfl

theorem famDigits_eq (fam : Family) : famDigits fam = if fam = .sgtin then 13 else 17 := by cases fam <;> rfl

theorem lookup_of_none {c : Config} {fam : Family} {p : Nat} {x : Cause} (h : PT c fam p = none) :
    lookup c fam p x = .error x := by rw [lookup, h]

section
variable {c : Config} {fam : Family} {e : PartEntry}

/-- What R130 fixes of an entry: `fits_of_mem` for the table of a family. -/
theorem fits_of_mem_table (hc : c.wf = true) (he : e ∈ table c fam) :
    e.p < 7 ∧ e.d1 = 12 - e.p ∧ e.d2 = famDigits fam - e.d1 ∧ 3 + e.b1 + e.b2 = famTotal fam ∧ 0 < e.b1 ∧ 0 < e.b2 :=
  fits_of_mem (table_fits hc fam) he

/-- Every entry has digits for both fields. -/
theorem digit_widths_pos (hc : c.wf = true) (he : e ∈ table c fam) : 0 < e.d1 ∧ 0 < e.d2 := by
  obtain ⟨hp, hd1, hd2, _⟩ := fits_of_mem_table hc he
  have hdigits : 13 ≤ famDigits fam := by cases fam <;> decide
  omega

/-- A length of 6 to 12 has an entry, and its two digit widths are that length and the rest of the digits. -/
theorem exists_entry_of_length (hc : c.wf = true) (fam : Family) {L : Nat} (h6 : 6 ≤ L) (h12 : L ≤ 12) :
    ∃ e ∈ table c fam, PT c fam (12 - L) = some e ∧ e.p = 12 - L ∧ e.d1 = L ∧ e.d2 = famDigits fam - L := by
  obtain ⟨e, he⟩ := PT_isSome hc fam (show 12 - L < 7 by omega)
  obtain ⟨hmem, hp⟩ := (PT_eq_some hc).mp he
  obtain ⟨_, hd1, hd2, _⟩ := fits_of_mem_table hc hmem
  have hL : e.d1 = L := by omega
  exact ⟨e, hmem, he, hp, hL, hL ▸ hd2⟩

end

/-! ### A segment and its three fields (R135) -/

/-- The bits that `encPart` answers (`encPart_eq_segment`). -/
def segment (e : PartEntry) (v1 v2 : Nat) : Bits := bitsOf e.p 3 ++ bitsOf v1 e.b1 ++ bitsOf v2 e.b2

section
variable {e : PartEntry} {v1 v2 : Nat}

theorem segment_length : (segment e v1 v2).length = 3 + e.b1 + e.b2 := by
  simp only [segment, List.length_append, bitsOf_length]

theorem field_segment_index (hp : e.p < 7) : field (segment e v1 v2) 0 3 = e.p := by
  rw [field, segment, List.append_assoc, slice_append_first (bitsOf_length _ _).symm, uint_bitsOf_of_lt (by omega)]

theorem field_segment_first (h1 : v1 < 2 ^ e.b1) : field (segment e v1 v2) 3 e.b1 = v1 := by
  rw [field, segment, List.append_assoc, slice_append_right (bitsOf_length _ _).le, bitsOf_length, Nat.sub_self,
    slice_append_first (bitsOf_length _ _).symm, uint_bitsOf_of_lt h1]

theorem field_segment_second (h2 : v2 < 2 ^ e.b2) : field (segment e v1 v2) (3 + e.b1) e.b2 = v2 := by
  have hlen : (bitsOf e.p 3 ++ bitsOf v1 e.b1).length = 3 + e.b1 := by
    rw [List.length_append, bitsOf_length, bitsOf_length]
  have hall : slice (bitsOf v2 e.b2) 0 e.b2 = bitsOf v2 e.b2 := by
    simpa using slice_zero_length (bitsOf v2 e.b2)
  rw [field, segment, slice_append_right hlen.le, hlen, Nat.sub_self, hall, uint_bitsOf_of_lt h2]

end

/-! ### encPart, each failure in its order and then the segment (R135) -/

section
variable {c : Config} {fam : Family} {f1 f2 : Text} {e : PartEntry}

theorem encPart_of_bad_length (h : f1.length < 6 ∨ 12 < f1.length) : encPart c fam f1 f2 = .error .eCplen := by
  have hlen : ¬ (6 ≤ f1.length ∧ f1.length ≤ 12) := by omega
  rw [encPart, require_neg hlen, error_bind]

theorem encPart_of_not_numeral (hlen : 6 ≤ f1.length ∧ f1.length ≤ 12) (h : ¬ Numeral f1 ∨ ¬ Numeral f2) :
    encPart c fam f1 f2 = .error .eNonnum := by
  by_cases h1 : isDigits f1 = true
  · have hne : f1 ≠ [] := List.ne_nil_of_length_pos (by omega)
    have h2 : ¬ (f2 ≠ [] ∧ isDigits f2 = true) := h.resolve_left (not_not_intro ⟨hne, h1⟩)
    rw [encPart, require_pos hlen, ok_bind, require_pos h1, ok_bind, require_neg h2, error_bind]
  · rw [encPart, require_pos hlen, ok_bind, require_neg h1, error_bind]

theorem encPart_of_wide (hlen : 6 ≤ f1.length ∧ f1.length ≤ 12) (h1 : Numeral f1) (h2 : Numeral f2)
    (he : PT c fam (12 - f1.length) = some e) (hwide : 2 ^ e.b1 ≤ intValue f1 ∨ 2 ^ e.b2 ≤ intValue f2) :
    encPart c fam f1 f2 = .error .eNofit := by
  rw [encPart, require_pos hlen, ok_bind, require_pos h1.2, ok_bind, require_pos h2, ok_bind, lookup_eq_ok.mpr he,
    ok_bind]
  rcases Nat.lt_or_ge (intValue f1) (2 ^ e.b1) with hv1 | hv1
  · rw [encInt_of_lt hv1, ok_bind, encInt_of_le (hwide.resolve_left hv1.not_ge), error_bind]
  · rw [encInt_of_le hv1, error_bind]

/-- Where `encPart` succeeds: `encPart_eq_ok` for an allowed configuration, whose indices fit their 3 bits. -/
theorem encPart_eq_segment (hc : c.wf = true) (hlen : 6 ≤ f1.length ∧ f1.length ≤ 12) (h1 : Numeral f1)
    (h2 : Numeral f2) (he : PT c fam (12 - f1.length) = some e) {b : Bits} :
    encPart c fam f1 f2 = .ok b ↔
      (intValue f1 < 2 ^ e.b1 ∧ intValue f2 < 2 ^ e.b2) ∧ b = segment e (intValue f1) (intValue f2) := by
  rw [encPart_eq_ok]
  constructor
  · rintro ⟨_, _, _, e', he', hv1, hv2, _, rfl⟩
    obtain rfl : e' = e := Option.some.inj (he'.symm.trans he)
    exact ⟨⟨hv1, hv2⟩, rfl⟩
  · rintro ⟨⟨hv1, hv2⟩, rfl⟩
    have hp := (fits_of_mem_table hc ((PT_eq_some hc).mp he).1).1
    exact ⟨hlen, h1.2, h2, e, he, hv1, hv2, by omega, rfl⟩

end

/-! ### decPart, each failure in its order and then the two fields (R136) -/

/-- Its length and its value determine a padded field. -/
theorem padded_unique {w v : Nat} {a b : Text} (ha : Padded w v a) (hb : Padded w v b) : a = b := by
  obtain ⟨hla, hda, hva⟩ := ha
  obtain ⟨hlb, hdb, hvb⟩ := hb
  exact digits_ext hda hdb (hla.trans hlb.symm) (hva.trans hvb.symm)

/-- `decInt` writes no more than `d` digits exactly when the value is below `10^d` (40_integer R101). -/
theorem decInt_length_le_iff {b : Bits} {d : Nat} (hd : 0 < d) : (decInt b).length ≤ d ↔ uint b < 10 ^ d :=
  dec_length_le hd

theorem padded_zpad_decInt {b : Bits} {w : Nat} (h : (decInt b).length ≤ w) : Padded w (uint b) (zpad (decInt b) w) :=
  ⟨zpad_length h, isDigits_zpad (isDigits_dec _) w, (intValue_zpad _ w).trans (intValue_decInt b)⟩

section
variable {c : Config} {fam : Family} {b : Bits} {e : PartEntry}

theorem decPart_of_no_index (h : b.length < 3) : decPart c fam b = .error .dLen := by
  rw [decPart, require_neg h.not_ge, error_bind]

theorem decPart_of_no_entry (h3 : 3 ≤ b.length) (he : PT c fam (field b 0 3) = none) :
    decPart c fam b = .error .dPart := by
  rw [decPart, require_pos h3, ok_bind, ← field, lookup_of_none he, error_bind]

theorem decPart_of_short (h3 : 3 ≤ b.length) (he : PT c fam (field b 0 3) = some e)
    (hlen : b.length < 3 + e.b1 + e.b2) : decPart c fam b = .error .dLen := by
  rw [decPart, require_pos h3, ok_bind, ← field, lookup_eq_ok.mpr he, ok_bind, require_neg hlen.not_ge, error_bind]

theorem decPart_of_wide (hc : c.wf = true) (he : PT c fam (field b 0 3) = some e) (hlen : 3 + e.b1 + e.b2 ≤ b.length)
    (hwide : 10 ^ e.d1 ≤ field b 3 e.b1 ∨ 10 ^ e.d2 ≤ field b (3 + e.b1) e.b2) :
    decPart c fam b = .error .dWide := by
  obtain ⟨hd1, hd2⟩ := digit_widths_pos hc ((PT_eq_some hc).mp he).1
  have hdigits : ¬ ((decInt (slice b 3 e.b1)).length ≤ e.d1 ∧ (decInt (slice b (3 + e.b1) e.b2)).length ≤ e.d2) := by
    rwa [decInt_length_le_iff hd1, decInt_length_le_iff hd2, not_and_or, not_lt, not_lt]
  have h3 : 3 ≤ b.length := by omega
  rw [decPart, require_pos h3, ok_bind, ← field, lookup_eq_ok.mpr he, ok_bind, require_pos hlen, ok_bind]
  simp only [require_neg hdigits, error_bind]

theorem decPart_of_fits (hc : c.wf = true) (he : PT c fam (field b 0 3) = some e) (hlen : 3 + e.b1 + e.b2 ≤ b.length)
    (h1 : field b 3 e.b1 < 10 ^ e.d1) (h2 : field b (3 + e.b1) e.b2 < 10 ^ e.d2) :
    ∃ f, decPart c fam b = .ok f ∧ Padded e.d1 (field b 3 e.b1) f.1 ∧ Padded e.d2 (field b (3 + e.b1) e.b2) f.2 := by
  obtain ⟨hd1, hd2⟩ := digit_widths_pos hc ((PT_eq_some hc).mp he).1
  have hl1 := (decInt_length_le_iff hd1).mpr h1
  have hl2 := (decInt_length_le_iff hd2).mpr h2
  exact ⟨_, decPart_eq_ok.mpr ⟨by omega, e, he, hlen, ⟨hl1, hl2⟩, rfl⟩, padded_zpad_decInt hl1, padded_zpad_decInt hl2⟩

end

/-! ### A segment inside a longer bit string -/

theorem field_slice (x : Bits) {a n k w : Nat} (h : k + w ≤ n) : field (slice x a n) k w = field x (a + k) w :=
  congrArg uint (slice_slice x h)

theorem slice_to_end_length (b : Bits) (a : Nat) : (slice b a (b.length - a)).length = b.length - a := by
  rw [slice, List.length_take, List.length_drop, Nat.min_self]

/-- The statement `SegmentReads` about a command that raises what `decPart` fails with on the segment, and of which
`good` is known where `decPart` succeeds. -/
theorem segmentReads_of_decPart {i : Instr} {s : State} {fam : Family} {x : Bits} {a len : Nat}
    {good : PartEntry → Text → Text → Prop} (o : Opcode) (hc : s.cfg.wf = true) (hlen : (slice x a len).length = len)
    (hraise : ∀ r, decPart s.cfg fam (slice x a len) = .error r → exec i s = .next (s.raise o.byte r))
    (hgood : ∀ e f, PT s.cfg fam (field (slice x a len) 0 3) = some e → decPart s.cfg fam (slice x a len) = .ok f →
      good e f.1 f.2) :
    SegmentReads i s o.byte.toNat fam x a len good := by
  have hfails r (h : decPart s.cfg fam (slice x a len) = .error r) := failsWith_of_raise o r (hraise r h)
  have hindex (h3 : 3 ≤ len) : field (slice x a len) 0 3 = field x a 3 := field_slice x h3
  refine ⟨fun h => hfails .dLen (decPart_of_no_index (by omega)), fun h3 h7 => ?_, fun h3 h7 => ?_⟩
  · refine hfails .dPart (decPart_of_no_entry (by omega) ?_)
    rw [hindex h3, h7]
    exact PT_eq_none hc fam le_rfl
  have hlt : field x a 3 < 8 := (uint_lt _).trans_le (Nat.pow_le_pow_right two_pos (slice_length_le x a 3))
  obtain ⟨e, he⟩ := PT_isSome hc fam (show field x a 3 < 7 by omega)
  obtain ⟨hmem, hp⟩ := (PT_eq_some hc).mp he
  rw [← hindex h3] at he
  refine ⟨e, hmem, hp, fun hshort => ?_, fun hfull => ?_⟩
  · exact hfails .dLen (decPart_of_short (by omega) he (by omega))
  rw [← field_slice (n := len) x (by omega), Nat.add_assoc a, ← field_slice (n := len) x (by omega)]
  refine ⟨fun hwide => hfails .dWide (decPart_of_wide hc he (by omega) hwide), fun h1 h2 => ?_⟩
  obtain ⟨f, hf, hpad1, hpad2⟩ := decPart_of_fits hc he (by omega) h1 h2
  exact ⟨f.1, f.2, hpad1, hpad2, hgood e f he hf⟩

/-! ### ENCP where it fails, and DECP (R137, R138); ENCP where it does not fail is `exec_encp_of_le` -/

section
variable {fam : Family} {ta tb : TReg} {s : State}

theorem exec_encp_of_error {r : Cause} (h : encPart s.cfg fam (s.getT ta) (s.getT tb) = .error r) :
    exec (.encp fam ta tb) s = .next (s.raise Opcode.encp.byte r) := by
  change execEncp fam ta tb s = _
  rw [execEncp, h, error_bind, commit_error]

theorem exec_encp_of_full {b : Bits} (hb : encPart s.cfg fam (s.getT ta) (s.getT tb) = .ok b)
    (hcap : s.cfg.fbcap < s.fb.length + b.length) :
    exec (.encp fam ta tb) s = .next (s.raise Opcode.encp.byte .eFbfull) := by
  change execEncp fam ta tb s = _
  rw [execEncp, hb, ok_bind, tryAppend_of_lt hcap, commit_error]

theorem exec_decp_of_error {r : Cause}
    (h : decPart s.cfg fam (slice s.fb s.rc (s.fb.length - s.rc)) = .error r) :
    exec (.decp fam ta tb) s = .next (s.raise Opcode.decp.byte r) := by
  change execDecp fam ta tb s = _
  simp only [execDecp, State.memRead, h, error_bind, commit_error]

theorem exec_decp_of_ok {e : PartEntry} {f : Text × Text}
    (he : PT s.cfg fam (field (slice s.fb s.rc (s.fb.length - s.rc)) 0 3) = some e)
    (hf : decPart s.cfg fam (slice s.fb s.rc (s.fb.length - s.rc)) = .ok f) :
    exec (.decp fam ta tb) s = .next (((s.setT ta f.1).setT tb f.2).setRC (s.rc + 3 + e.b1 + e.b2)) := by
  change execDecp fam ta tb s = _
  simp only [execDecp, State.memRead, hf, ok_bind, pure_eq_ok]
  rw [← field, lookup_eq_ok.mpr he, ok_bind, commit_ok]

end

/-- Every full-width field fits its bits in the default tables (R131, R132). -/
theorem default_widths_fit {fam : Family} {e : PartEntry} (he : e ∈ table Config.default fam) :
    10 ^ e.d1 ≤ 2 ^ e.b1 ∧ 10 ^ e.d2 ≤ 2 ^ e.b2 := by
  have hall : ∀ f, ∀ e ∈ table Config.default f, 10 ^ e.d1 ≤ 2 ^ e.b1 ∧ 10 ^ e.d2 ≤ 2 ^ e.b2 := by
    intro f
    cases f <;> decide
  exact hall fam e he

/-! ### The obligations -/

/-- Settles O35: the first digit width of an entry is 12 less its index, and its index determines an entry. -/
theorem partitionSelection : Obligations.PartitionSelection := by
  intro c fam L hc
  refine ⟨fun h6 h12 => ?_, fun hL e he => ?_⟩
  · obtain ⟨e, hmem, he, hp, hd1, _⟩ := exists_entry_of_length hc fam h6 h12
    refine ⟨e, hmem, he, hd1, fun e' hmem' hd1' => entry_unique (table_fits hc fam) hmem' hmem ?_⟩
    obtain ⟨hlt', hd', _⟩ := fits_of_mem_table hc hmem'
    omega
  · obtain ⟨hlt, hd1, _⟩ := fits_of_mem_table hc he
    omega

/-- Settles O36: the failures of `encPart` in order, then the append of the segment. -/
theorem encpAppendsSegment : Obligations.EncpAppendsSegment := by
  intro fam ta tb s hc
  rw [← famTotal_eq]
  refine ⟨fun h => ?_, fun h6 h12 hnum => ?_, fun h6 h12 h1 h2 => ?_⟩
  · exact failsWith_of_raise .encp .eCplen (exec_encp_of_error (encPart_of_bad_length h))
  · exact failsWith_of_raise .encp .eNonnum (exec_encp_of_error (encPart_of_not_numeral ⟨h6, h12⟩ hnum))
  obtain ⟨e, hmem, he, hp, _⟩ := exists_entry_of_length hc fam h6 h12
  refine ⟨e, hmem, hp, fun hwide => ?_, fun hv1 hv2 => ?_⟩
  · exact failsWith_of_raise .encp .eNofit (exec_encp_of_error (encPart_of_wide ⟨h6, h12⟩ h1 h2 he hwide))
  have hseg := (encPart_eq_segment hc ⟨h6, h12⟩ h1 h2 he).mpr ⟨⟨hv1, hv2⟩, rfl⟩
  have hlen := encPart_length hc hseg
  rw [← hlen]
  refine ⟨fun hfull => failsWith_of_raise .encp .eFbfull (exec_encp_of_full hseg hfull), fun hcap => ?_⟩
  exact ⟨_, rfl, field_segment_index (fits_of_mem_table hc hmem).1, field_segment_first hv1,
    field_segment_second hv2, exec_encp_of_le hseg hcap⟩

/-- Settles O37, by `segmentReads_of_decPart` on the rest of the frame buffer. -/
theorem decpReadsSegment : Obligations.DecpReadsSegment := by
  intro fam ta tb s hc _
  refine segmentReads_of_decPart .decp hc (slice_to_end_length _ _) (fun _ => exec_decp_of_error) fun e f he hf => ?_
  obtain ⟨_, _, _, htotal, _⟩ := fits_of_mem_table hc ((PT_eq_some hc).mp he).1
  have hrc : s.rc + 3 + e.b1 + e.b2 = s.rc + famTotal fam := by omega
  rw [exec_decp_of_ok he hf, hrc, famTotal_eq]
  rfl

/-- Settles O38: the default widths hold every full-width field, and a segment's fields read back as the numbers written,
which determine the digits. -/
theorem partitionRoundTrip : Obligations.PartitionRoundTrip := by
  intro c fam f1 f2 hc h6 h12 hd1 hd2 hlen2
  rw [← famDigits_eq] at hlen2
  rw [← famTotal_eq]
  obtain ⟨e, hmem, he, hp, hw1, hw2⟩ := exists_entry_of_length hc fam h6 h12
  have hw2 : e.d2 = f2.length := hw2.trans hlen2.symm
  have hpos := (digit_widths_pos hc hmem).2
  have h1 : Numeral f1 := ⟨List.ne_nil_of_length_pos (by omega), hd1⟩
  have h2 : Numeral f2 := ⟨List.ne_nil_of_length_pos (by omega), hd2⟩
  have hv1 : intValue f1 < 10 ^ e.d1 := hw1 ▸ intValue_lt hd1
  have hv2 : intValue f2 < 10 ^ e.d2 := hw2 ▸ intValue_lt hd2
  have hiff {b : Bits} := encPart_eq_segment hc ⟨h6, h12⟩ h1 h2 he (b := b)
  refine ⟨fun hdefault => ?_, fun b hb => ⟨encPart_length hc hb, ?_⟩⟩
  · obtain ⟨hb1, hb2⟩ := default_widths_fit (hdefault ▸ hmem)
    exact ⟨_, hiff.mpr ⟨⟨hv1.trans_le hb1, hv2.trans_le hb2⟩, rfl⟩⟩
  · obtain ⟨⟨hb1, hb2⟩, rfl⟩ := hiff.mp hb
    have hr1 := field_segment_first (v2 := intValue f2) hb1
    have hr2 := field_segment_second (v1 := intValue f1) hb2
    have hidx := field_segment_index (v1 := intValue f1) (v2 := intValue f2) (fits_of_mem_table hc hmem).1
    obtain ⟨f, hf, hpad1, hpad2⟩ := decPart_of_fits hc (by rwa [hidx, hp]) segment_length.ge
      (by rwa [hr1]) (by rwa [hr2])
    rw [hr1] at hpad1
    rw [hr2] at hpad2
    rw [hf, ← padded_unique hpad1 ⟨hw1.symm, hd1, rfl⟩, ← padded_unique hpad2 ⟨hw2.symm, hd2, rfl⟩]

end Sys2Proof.Machine
end

section
/-! PROOFS. The check digit: its sum and the digit that completes it (44_checkdigit R150), CHK (R151), the laws (R154), and
the keys a host composes with it and takes apart (R152, R153; 45_frames R170, R171). -/

namespace Sys2Proof.Machine

open Sys2Proof.Spec

/-! ### The sum and its digit (R150) -/

/-- The weights by the distance from the end: `odd` says whether the even distances, 0 the first of them, weigh 3. -/
theorem weighted_map_digitVal (odd : Bool) (cs : Text) :
    weighted odd (cs.map digitVal) =
      ((List.range cs.length).map fun j => digitVal (cs.getD j 48) * (if odd = decide (j % 2 = 0) then 3 else 1)).sum := by
  induction cs generalizing odd with
  | nil => rfl
  | cons c cs ih =>
    have hnext (j : Nat) : (odd = decide ((j + 1) % 2 = 0)) = ((!odd) = decide (j % 2 = 0)) := by
      rcases Nat.mod_two_eq_zero_or_one j with h | h <;> cases odd <;> simp [Nat.add_mod, h]
    rw [List.map_cons, weighted, ih, List.length_cons, List.range_succ_eq_map, List.map_cons, List.map_map]
    simp only [Function.comp_def, Nat.succ_eq_add_one, hnext, List.getD_cons_succ, List.getD_cons_zero, List.sum_cons,
      Nat.zero_mod, decide_true]

/-- The sum of R150, position by position from the right. -/
theorem checkSum_eq_sum (ds : Text) :
    checkSum ds =
      ((List.range ds.length).map fun j => digitVal (ds.reverse.getD j 48) * (if j % 2 = 0 then 3 else 1)).sum := by
  simp only [checkSum, digitsFromRight, weighted_map_digitVal, List.length_reverse, eq_comm (a := true),
    decide_eq_true_eq]

theorem checkSum_add_digitVal_chk (ds : Text) : (checkSum ds + digitVal (chk ds)) % 10 = 0 := by
  rw [digitVal_chk]; omega

theorem digitsFromRight_append (a b : Text) : digitsFromRight (a ++ b) = digitsFromRight b ++ digitsFromRight a := by
  simp only [digitsFromRight, List.reverse_append, List.map_append]

theorem weighted_replicate_zero (odd : Bool) (k : Nat) : weighted odd (List.replicate k 0) = 0 := by
  induction k generalizing odd with
  | zero => rfl
  | succ k ih => rw [List.replicate_succ, weighted, ih, Nat.zero_mul]

/-- Leading zeros stand at the far end of the sum, where they leave the other digits' weights alone. -/
theorem checkSum_zeros_append (k : Nat) (ds : Text) : checkSum (List.replicate k 48 ++ ds) = checkSum ds := by
  have hzeros : digitsFromRight (List.replicate k 48) = List.replicate k 0 := by
    rw [digitsFromRight, List.reverse_replicate, List.map_replicate]; rfl
  rw [checkSum, digitsFromRight_append, weighted_append, hzeros, weighted_replicate_zero]; rfl

/-- A digit appended weighs 1, and the digits before it keep the weights of R150. -/
theorem weighted_digitsFromRight_concat (ds : Text) (c : Char7) :
    weighted false (digitsFromRight (ds ++ [c])) = checkSum ds + digitVal c := by
  rw [digitsFromRight_append]
  simp [digitsFromRight, weighted, checkSum, Nat.add_comm]

/-! ### CHK (R151) -/

theorem exec_chk_of_not_digits {ta tb : TReg} {s : State} (h : ¬ isDigits (s.getT ta) = true) :
    exec (.chk ta tb) s = .next (s.raise Opcode.chk.byte .vDigit) := by
  change execChk ta tb s = _
  simp only [execChk, require_neg h, error_bind, commit_error]

theorem exec_chk_of_digits {ta tb : TReg} {s : State} (h : isDigits (s.getT ta) = true) :
    exec (.chk ta tb) s = .next (s.setT tb [chk (s.getT ta)]) := by
  change execChk ta tb s = _
  simp only [execChk, require_pos h, ok_bind, pure_eq_ok, commit_ok]

/-! ### Keys (R152, R153, R170, R171) -/

section
variable {cp companion : Text}

theorem keyBody_length : (keyBody cp companion).length = cp.length + companion.length := by
  simp only [keyBody, List.length_append, List.length_take, List.length_drop]; omega

/-- The length of a key: the body and its check digit. -/
theorem keyBody_concat_length (d : Char7) : (keyBody cp companion ++ [d]).length = cp.length + companion.length + 1 := by
  rw [List.length_append, keyBody_length]; rfl

theorem isDigits_keyBody (hcp : isDigits cp = true) (hcomp : isDigits companion = true) :
    isDigits (keyBody cp companion) = true := by
  rw [← List.take_append_drop 1 companion, isDigits_append, Bool.and_eq_true] at hcomp
  rw [keyBody, isDigits_append, isDigits_append, hcp, hcomp.1, hcomp.2]; rfl

/-- The fields of a key come back at the prefix length, whatever digit closes it. -/
theorem splitKey_keyBody {len : Nat} (d : Char7) (hne : companion ≠ []) (hlen : len = cp.length + companion.length + 1) :
    splitKey len (keyBody cp companion ++ [d]) cp.length = some (cp, companion) := by
  obtain ⟨c, rest, rfl⟩ := List.exists_cons_of_ne_nil hne
  have hkey : keyBody cp (c :: rest) ++ [d] = c :: (cp ++ (rest ++ [d])) := by simp [keyBody]
  have hrest : len - 2 - cp.length = rest.length := by rw [hlen, List.length_cons]; omega
  rw [splitKey, if_pos ((keyBody_concat_length d).trans hlen.symm), hkey, hrest]
  simp

end

/-! ### The obligations -/

/-- Settles O39: the digit written is the value of `chk`, which completes the sum of R150. -/
theorem chkWritesCheckDigit : Obligations.ChkWritesCheckDigit := by
  intro ta tb s
  refine ⟨fun h => ?_, fun h => ⟨digitVal (chk (s.getT ta)), digitVal_lt (chk_isDigit _), ?_, ?_⟩⟩
  · exact failsWith_of_raise .chk .vDigit (exec_chk_of_not_digits (ne_true_of_eq_false h))
  · rw [← checkSum_eq_sum]
    exact checkSum_add_digitVal_chk _
  · have hdigit : BitVec.ofNat 7 (48 + digitVal (chk (s.getT ta))) = chk (s.getT ta) :=
      digitChar_digitVal (chk_isDigit _)
    rw [hdigit, exec_chk_of_digits h]

/-- Settles O40: zeros on the left leave the sum as it is, and the digit on the right completes it. -/
theorem checkDigitLaws : Obligations.CheckDigitLaws := by
  refine ⟨fun k ds _ => ?_, fun ds _ => ?_⟩
  · rw [chk, checkSum_zeros_append, ← chk]
  · rw [weighted_digitsFromRight_concat]
    exact checkSum_add_digitVal_chk ds

/-- Settles O41, by `splitKey_keyBody` for both keys; the test of `fromGTIN` finds digits only. -/
theorem keysComposeAndSplit : Obligations.KeysComposeAndSplit := by
  intro cp comp h6 h12 hcp hcomp
  refine ⟨fun hlen => ⟨?_, ?_⟩, fun hlen => ⟨?_, ?_⟩⟩
  · rw [gtin14, keyBody_concat_length]; omega
  · have hdigits : isDigits (gtin14 cp comp) = true := by
      rw [gtin14, isDigits_append, isDigits_keyBody hcp hcomp, isDigits_cons, chk_isDigit]; rfl
    rw [fromGTIN, if_pos hdigits]
    exact splitKey_keyBody _ (List.ne_nil_of_length_pos (by omega)) (by omega)
  · rw [sscc18, keyBody_concat_length]; omega
  · exact splitKey_keyBody _ (List.ne_nil_of_length_pos (by omega)) (by omega)

end Sys2Proof.Machine
end

section
/-! PROOFS. The frame decodes: DSG and DSS, each failure in its order and then the effect (45_frames R167, R168), and the
reserved bits of an SSCC frame (R168, 60_exceptions R209). -/

namespace Sys2Proof.Machine

open Sys2Proof.Spec

/-! ### What the two decodes share (R167, R168) -/

/-- With the header found, DSG and DSS read `n` bits from T3 and decode the segment after header and filter; `load` gives
the next state from the bits and the two fields (`exec_dsg_of_header`, `exec_dss_of_header`). -/
def decodeFrame (o : Opcode) (fam : Family) (n : Nat) (load : Bits → Text × Text → State) (s : State) : Result :=
  commit o s do
    let x ← hexToBin s.t3 n
    let f ← decPart s.cfg fam (slice x 11 (famTotal fam))
    return load x f

/-- The header characters DSG decodes, the bits of their frame, and the byte left in HDR. -/
def DsgHeader (h : Text) (n : Nat) (header : Byte) : Prop :=
  (h.take 2 = ascii "30" ∧ n = 96 ∧ header = 0x30) ∨ (h.take 2 = ascii "36" ∧ n = 198 ∧ header = 0x36)

/-- The state after a successful DSS, as `dsgState` is for DSG. -/
def dssState (s : State) (x : Bits) (f : Text × Text) : State :=
  (((s.loadFrame x 72).setT .t0 f.1).setT .t1 f.2).setFrameInfo (BitVec.ofNat 3 (uint (slice x 8 3))) 0x31

section
variable {s : State}

theorem exec_dsg_of_other (h30 : s.t3.take 2 ≠ ascii "30") (h36 : s.t3.take 2 ≠ ascii "36") :
    exec .dsg s = .next (s.raise Opcode.dsg.byte .dHeader) := by
  change execDsg s = _
  simp only [execDsg, require_neg (not_or.mpr ⟨h30, h36⟩), error_bind, commit_error]

theorem exec_dsg_of_header {n : Nat} {header : Byte} (h : DsgHeader s.t3 n header) :
    exec .dsg s = decodeFrame .dsg .sgtin n (dsgState s · n) s := by
  change execDsg s = _
  obtain ⟨h, rfl, _⟩ | ⟨h, rfl, _⟩ := h
  · simp only [execDsg, require_pos (Or.inl h), ok_bind, if_pos h]
    rfl
  · have h30 : s.t3.take 2 ≠ ascii "30" := by rw [h]; decide
    simp only [execDsg, require_pos (Or.inr h), ok_bind, if_neg h30]
    rfl

theorem exec_dss_of_other (h : s.t3.take 2 ≠ ascii "31") : exec .dss s = .next (s.raise Opcode.dss.byte .dHeader) := by
  change execDss s = _
  simp only [execDss, require_neg h, error_bind, commit_error]

theorem exec_dss_of_header (h : s.t3.take 2 = ascii "31") :
    exec .dss s = decodeFrame .dss .sscc 96 (dssState s) s := by
  change execDss s = _
  simp only [execDss, require_pos h, ok_bind]
  rfl

end

/-- The filter bits as FLT holds them. -/
theorem toNat_filter (x : Bits) : (BitVec.ofNat 3 (uint (slice x 8 3))).toNat = field x 8 3 :=
  Nat.mod_eq_of_lt ((uint_lt _).trans_le (Nat.pow_le_pow_right two_pos (slice_length_le x 8 3)))

/-! ### The shared part, each failure in its order and then the effect -/

theorem hexToBin_of_not_hex {h : Text} {n : Nat} (hh : ¬ isHex h = true) : hexToBin h n = .error .dHexchar := by
  rw [hexToBin, require_neg hh, error_bind]

theorem hexToBin_of_lt {h : Text} {n : Nat} (hh : isHex h = true) (hn : 4 * h.length < n) :
    hexToBin h n = .error .dLen := by
  rw [hexToBin, require_pos hh, ok_bind, require_neg hn.not_ge, error_bind]

section
variable {o : Opcode} {fam : Family} {n : Nat} {load : Bits → Text × Text → State} {s : State}

theorem decodeFrame_of_hexToBin_error {r : Cause} (h : hexToBin s.t3 n = .error r) :
    decodeFrame o fam n load s = .next (s.raise o.byte r) := by
  rw [decodeFrame, h, error_bind, commit_error]

theorem decodeFrame_of_bits {x : Bits} (h : hexToBin s.t3 n = .ok x) :
    decodeFrame o fam n load s = commit o s (decPart s.cfg fam (slice x 11 (famTotal fam)) >>= fun f => .ok (load x f)) := by
  rw [decodeFrame, h, ok_bind]
  rfl

/-- The statement `SegmentReads` about the decodes: the checks of `decPart`, after those of `hexToBin`. -/
theorem decodeFrame_reads {i : Instr} {good : Bits → PartEntry → Text → Text → Prop} (hc : s.cfg.wf = true)
    (hi : exec i s = decodeFrame o fam n load s) (hn : 11 + famTotal fam ≤ n)
    (hgood : ∀ x e f, x.length = n → exec i s = .next (load x f) → good x e f.1 f.2) :
    (¬ HexText s.t3 → FailsWith i s o.byte.toNat 4 2) ∧
    (HexText s.t3 → 4 * s.t3.length < n → FailsWith i s o.byte.toNat 1 2) ∧
    (HexText s.t3 → n ≤ 4 * s.t3.length → ∃ x : Bits, x.length = n ∧ Spells s.t3 x ∧
      SegmentReads i s o.byte.toNat fam x 11 (famTotal fam) (good x)) := by
  simp only [hexText_iff]
  refine ⟨fun hh => ?_, fun hh hlen => ?_, fun hh hlen => ?_⟩
  · exact failsWith_of_raise o .dHexchar (hi.trans (decodeFrame_of_hexToBin_error (hexToBin_of_not_hex hh)))
  · exact failsWith_of_raise o .dLen (hi.trans (decodeFrame_of_hexToBin_error (hexToBin_of_lt hh hlen)))
  have hx := hexToBin_of_le hh hlen
  have hxn := hexToBin_length hx
  rw [decodeFrame_of_bits hx] at hi
  refine ⟨_, hxn, spells_take_hexExpand hh n, segmentReads_of_decPart o hc (slice_length (by rwa [hxn]))
    (fun r hr => ?_) fun e f _ hf => hgood _ e f hxn ?_⟩
  · rw [hi, hr, error_bind, commit_error]
  · rw [hi, hf, ok_bind, commit_ok]

end

/-! ### The reserved bits (R168) -/

/-- A slice that ends in the first `m` bits. -/
theorem slice_take {b : Bits} {m a n : Nat} (h : a + n ≤ m) : slice (b.take m) a n = slice b a n := by
  simpa [slice] using slice_slice b (a := 0) h

/-- The first `k` characters give the first `4 * k` bits. -/
theorem take_hexExpand (h : Text) (k : Nat) : (hexExpand h).take (4 * k) = hexExpand (h.take k) := by
  induction h generalizing k with
  | nil => simp [hexExpand]
  | cons c cs ih =>
    cases k with
    | zero => rfl
    | succ k =>
      have hk : 4 * (k + 1) = (bitsOf (hexVal c) 4).length + 4 * k := by rw [bitsOf_length]; omega
      rw [List.take_succ_cons, hexExpand_cons, hexExpand_cons, hk, List.take_length_add_append, ih]

/-- Texts that agree on their first `k` characters agree on every field that ends in the first `4 * k` bits. -/
theorem slice_hexExpand_congr {h h' : Text} {k a w n : Nat} (hpre : h.take k = h'.take k) (hk : a + w ≤ 4 * k)
    (hn : a + w ≤ n) : slice ((hexExpand h).take n) a w = slice ((hexExpand h').take n) a w := by
  rw [slice_take hn, slice_take hn, ← slice_take hk, take_hexExpand, hpre, ← take_hexExpand, slice_take hk]

/-- On texts that agree on their first 18 characters DSS raises alike or decodes the same fields: its two next states
differ in T3, where the texts stand, and in FB alone. -/
theorem exec_dss_of_prefix {s : State} {h : Text} (hs : isHex s.t3 = true) (hh : isHex h = true)
    (hslen : 24 ≤ s.t3.length) (hhlen : 24 ≤ h.length) (hpre : s.t3.take 18 = h.take 18) :
    ∃ t y, exec .dss s = .next t ∧ exec .dss { s with t3 := h } = .next { t with fb := y, t3 := h } := by
  have hhead : s.t3.take 2 = h.take 2 := by simpa [List.take_take] using congrArg (List.take 2) hpre
  by_cases h31 : s.t3.take 2 = ascii "31"
  · have hx := hexToBin_of_le (n := 96) hs (by omega)
    have hx' := hexToBin_of_le (n := 96) hh (by omega)
    have hseg := slice_hexExpand_congr (n := 96) (a := 11) (w := famTotal .sscc) hpre (by decide) (by decide)
    have hflt := slice_hexExpand_congr (n := 96) (a := 8) (w := 3) hpre (by decide) (by decide)
    rw [exec_dss_of_header h31, decodeFrame_of_bits hx, hseg, exec_dss_of_header (hhead ▸ h31),
      decodeFrame_of_bits hx']
    cases decPart s.cfg .sscc (slice ((hexExpand h).take 96) 11 (famTotal .sscc)) with
    | error r => exact ⟨_, s.fb, rfl, rfl⟩
    | ok f => exact ⟨_, (hexExpand h).take 96, rfl, by rw [dssState, hflt]; rfl⟩
  · rw [exec_dss_of_other h31, exec_dss_of_other (hhead ▸ h31)]
    exact ⟨_, s.fb, rfl, rfl⟩

/-! ### The obligations -/

/-- Settles O45: the header test, then the checks of `decodeFrame_reads` for either frame, then the fields of `dsgState`. -/
theorem dsgDecodesFrame : Obligations.DsgDecodesFrame := by
  intro s hc
  refine ⟨fun h30 h36 => failsWith_of_raise .dsg .dHeader (exec_dsg_of_other h30 h36), fun N header h => ?_⟩
  have hheader : DsgHeader s.t3 N header := h
  have hN : N = 96 ∧ header = 0x30 ∨ N = 198 ∧ header = 0x36 := h.imp And.right And.right
  refine decodeFrame_reads (o := .dsg) hc (exec_dsg_of_header hheader) ?_ fun x e f hx hexec => ?_
  · obtain ⟨rfl, _⟩ | ⟨rfl, _⟩ := hN <;> decide
  obtain ⟨rfl, rfl⟩ | ⟨rfl, rfl⟩ := hN
  · exact ⟨_, _, toNat_filter x, fun _ => shortest_decInt _, nofun, hexec⟩
  · exact ⟨_, _, toNat_filter x, nofun, fun _ => decStr_slice (k := 20) hx.ge, hexec⟩

/-- Settles O46: the header test, then the checks of `decodeFrame_reads`, then the fields of `dssState`. -/
theorem dssDecodesFrame : Obligations.DssDecodesFrame := by
  intro s hc
  refine ⟨fun h => failsWith_of_raise .dss .dHeader (exec_dss_of_other h), ?_⟩
  rw [← imp_and, ← imp_and]
  intro h
  exact decodeFrame_reads (o := .dss) hc (exec_dss_of_header h) (by decide) fun x e f _ hexec =>
    ⟨_, toNat_filter x, hexec⟩

/-- Settles O47, by `exec_dss_of_prefix`. -/
theorem ssccReservedBitsIgnored : Obligations.SsccReservedBitsIgnored := by
  intro s h t t' hs hh hslen hhlen hpre ht ht'
  obtain ⟨u, y, hu, hu'⟩ := exec_dss_of_prefix (hexText_iff.mp hs) (hexText_iff.mp hh) hslen hhlen hpre
  obtain rfl := Host.Outcome.next.inj (hu.symm.trans ht)
  obtain rfl := Host.Outcome.next.inj (hu'.symm.trans ht')
  exact ⟨rfl, rfl, rfl, rfl, rfl, rfl⟩

end Sys2Proof.Machine
end

section
/-! PROOFS. The frame encodes: ESG96, ESG198 and ESS96, each failure in its order and then the frame (45_frames R162,
R163, R165), and the source's own vectors. -/

namespace Sys2Proof.Machine

open Sys2Proof.Spec

/-! ### A frame and its fields (30_encoding R70 to R72) -/

/-- The frame of a header, a filter, a segment and the bits that follow it. -/
def frame (header : Nat) (flt : BitVec 3) (seg last : Bits) : Bits :=
  bitsOf header 8 ++ bitsOf flt.toNat 3 ++ seg ++ last

section
variable {header : Nat} {flt : BitVec 3} {seg last : Bits}

theorem frame_prefix_length : (bitsOf header 8 ++ bitsOf flt.toNat 3 ++ seg).length = 11 + seg.length := by
  simp only [List.length_append, bitsOf_length]

theorem frame_length : (frame header flt seg last).length = 11 + seg.length + last.length := by
  rw [frame, List.length_append, frame_prefix_length]

theorem slice_frame_header : slice (frame header flt seg last) 0 8 = bitsOf header 8 := by
  rw [frame, List.append_assoc, List.append_assoc, slice_append_first (bitsOf_length _ _).symm]

theorem slice_frame_filter : slice (frame header flt seg last) 8 3 = bitsOf flt.toNat 3 := by
  rw [frame, List.append_assoc, List.append_assoc, slice_append_right (bitsOf_length _ _).le, bitsOf_length,
    slice_append_first (bitsOf_length _ _).symm]

theorem slice_frame_segment {w : Nat} (hw : seg.length = w) : slice (frame header flt seg last) 11 w = seg := by
  rw [frame, List.append_assoc, slice_append_right (by simp), List.length_append, bitsOf_length, bitsOf_length,
    slice_append_first hw.symm]

theorem slice_frame_last {a w : Nat} (ha : 11 + seg.length = a) (hw : last.length = w) :
    slice (frame header flt seg last) a w = last := by
  have hlen := frame_prefix_length (header := header) (flt := flt) (seg := seg)
  rw [frame, slice_append_right (by omega), hlen, ha, Nat.sub_self, ← hw, slice_zero_length]

/-- A field of the segment is a field of the frame, 11 bits further on. -/
theorem field_frame_segment {a w : Nat} (h : a + w ≤ seg.length) :
    field (frame header flt seg last) (11 + a) w = field seg a w := by
  rw [← field_slice (frame header flt seg last) h, slice_frame_segment rfl]

theorem frameStart_frame {e : PartEntry} {v1 v2 : Nat} (hh : header < 2 ^ 8) (hp : e.p < 7) (h1 : v1 < 2 ^ e.b1)
    (h2 : v2 < 2 ^ e.b2) : FrameStart (frame header flt (segment e v1 v2) last) header flt e v1 v2 := by
  have hlen := segment_length (e := e) (v1 := v1) (v2 := v2)
  refine ⟨?_, ?_, ?_, ?_, ?_⟩
  · rw [field, slice_frame_header, uint_bitsOf_of_lt hh]
  · rw [field, slice_frame_filter, uint_bitsOf_of_lt flt.isLt]
  · exact (field_frame_segment (a := 0) (by omega)).trans (field_segment_index hp)
  · exact (field_frame_segment (a := 3) (by omega)).trans (field_segment_first h1)
  · rw [show 14 + e.b1 = 11 + (3 + e.b1) by omega]
    exact (field_frame_segment hlen.ge).trans (field_segment_second h2)

end

/-- `holds_packChars` with `a` bits before the packed characters. -/
theorem holds_append_packChars {x : Bits} {a : Nat} (ha : x.length = a) (t : Text) (k : Nat) :
    Holds (x ++ (packChars t ++ zeros k)) a t := by
  subst ha
  obtain ⟨hchars, hpad⟩ := holds_packChars t k
  constructor
  · intro i c hc
    rw [field, slice_append_right (Nat.le_add_right _ _), Nat.add_sub_cancel_left, ← hchars i c hc, field, Nat.zero_add]
  · intro j hj hlt
    rw [List.length_append] at hlt
    rw [List.getElem?_append_right (by omega)]
    exact hpad _ (by omega) (by omega)

/-! ### encSeg, each failure in its order and then the segment (R161) -/

section
variable {c : Config} {fam : Family} {f1 f2 : Text} {e : PartEntry}

theorem encSeg_of_bad_length (h : f1.length < 6 ∨ 12 < f1.length) : encSeg c fam f1 f2 = .error .eCplen := by
  have hlen : ¬ (6 ≤ f1.length ∧ f1.length ≤ 12) := by omega
  rw [encSeg, require_neg hlen, error_bind]

theorem encSeg_of_bad_width (hlen : 6 ≤ f1.length ∧ f1.length ≤ 12) (he : PT c fam (12 - f1.length) = some e)
    (h : f2.length ≠ e.d2) : encSeg c fam f1 f2 = .error .vFldlen := by
  rw [encSeg, require_pos hlen, ok_bind, lookup_eq_ok.mpr he, ok_bind, require_neg h, error_bind]

theorem encSeg_eq_encPart (hlen : 6 ≤ f1.length ∧ f1.length ≤ 12) (he : PT c fam (12 - f1.length) = some e)
    (h : f2.length = e.d2) : encSeg c fam f1 f2 = encPart c fam f1 f2 := by
  rw [encSeg, require_pos hlen, ok_bind, lookup_eq_ok.mpr he, ok_bind, require_pos h, ok_bind]

end

/-- The statement `SegmentChecks` about a command that raises what `encSeg` fails with, and of which `good` is known where
`encSeg` succeeds. -/
theorem segmentChecks_of_encSeg {i : Instr} {s : State} {fam : Family} {good : PartEntry → Prop} (o : Opcode)
    (hc : s.cfg.wf = true)
    (hraise : ∀ r, encSeg s.cfg fam s.t0 s.t1 = .error r → exec i s = .next (s.raise o.byte r))
    (hgood : ∀ e ∈ table s.cfg fam, intValue s.t0 < 2 ^ e.b1 → intValue s.t1 < 2 ^ e.b2 →
      encSeg s.cfg fam s.t0 s.t1 = .ok (segment e (intValue s.t0) (intValue s.t1)) → good e) :
    SegmentChecks i s o.byte.toNat fam (famDigits fam) good := by
  have hfails r (h : encSeg s.cfg fam s.t0 s.t1 = .error r) := failsWith_of_raise o r (hraise r h)
  refine ⟨fun h => hfails .eCplen (encSeg_of_bad_length h), fun h6 h12 hne => ?_, fun h6 h12 heq => ?_⟩ <;>
    obtain ⟨e, hmem, he, hp, _, hd2⟩ := exists_entry_of_length hc fam h6 h12
  · exact hfails .vFldlen (encSeg_of_bad_width ⟨h6, h12⟩ he (hd2 ▸ hne))
  have hpart := encSeg_eq_encPart ⟨h6, h12⟩ he (heq.trans hd2.symm)
  refine ⟨fun hnum => hfails .eNonnum (hpart.trans (encPart_of_not_numeral ⟨h6, h12⟩ ?_)), fun h1 h2 => ?_⟩
  · exact hnum.imp (fun h hn => ne_true_of_eq_false h hn.2) fun h hn => ne_true_of_eq_false h hn.2
  have hpos := (digit_widths_pos hc hmem).2
  have hn1 : Numeral s.t0 := ⟨List.ne_nil_of_length_pos (by omega), h1⟩
  have hn2 : Numeral s.t1 := ⟨List.ne_nil_of_length_pos (by omega), h2⟩
  refine ⟨e, hmem, hp, fun hwide => ?_, fun hv1 hv2 => hgood e hmem hv1 hv2 (hpart.trans ?_)⟩
  · exact hfails .eNofit (hpart.trans (encPart_of_wide ⟨h6, h12⟩ hn1 hn2 he hwide))
  · exact (encPart_eq_segment hc ⟨h6, h12⟩ hn1 hn2 he).mpr ⟨⟨hv1, hv2⟩, rfl⟩

/-! ### What the three encodes share (R162, R163, R165) -/

/-- The segment is encoded, then the bits `last` after it, and the frame is emitted (`exec_esg96_of_valid`, `exec_esg198`,
`exec_ess96_of_numeral`). -/
def encodeFrame (o : Opcode) (header : Nat) (flt : BitVec 3) (fam : Family) (last : Except Cause Bits) (s : State) :
    Result :=
  commit o s do
    let seg ← encSeg s.cfg fam s.t0 s.t1
    let ser ← last
    return s.emitFrame (frame header flt seg ser)

section
variable {s : State} {flt : BitVec 3}

theorem validSerial96_iff {t : Text} : validSerial96 t = true ↔ ValidSerial96 t := by
  have hzero : digitChar 0 = 48 := rfl
  simp [validSerial96, hzero, and_assoc]

theorem exec_esg96_of_invalid (h : ¬ validSerial96 s.t2 = true) :
    exec (.esg96 flt) s = .next (s.raise Opcode.esg96.byte .eSerial96) := by
  change execEsg96 flt s = _
  rw [execEsg96, require_neg h, error_bind, commit_error]

/-- The largest serial that passes the test has 38 bits. -/
theorem intValue_lt_of_validSerial96 (h : ValidSerial96 s.t2) : intValue s.t2 < 2 ^ 38 :=
  Nat.lt_of_le_of_lt h.2.2 (by decide)

theorem exec_esg96_of_valid (h : ValidSerial96 s.t2) :
    exec (.esg96 flt) s = encodeFrame .esg96 0x30 flt .sgtin (.ok (bitsOf (intValue s.t2) 38)) s := by
  have hheader : encInt 0x30 8 = .ok (bitsOf 0x30 8) := rfl
  change execEsg96 flt s = _
  rw [execEsg96, require_pos (validSerial96_iff.mpr h), ok_bind, hheader, encInt_of_lt flt.isLt,
    encInt_of_lt (intValue_lt_of_validSerial96 h)]
  rfl

theorem exec_esg198 : exec (.esg198 flt) s = encodeFrame .esg198 0x36 flt .sgtin (encStr s.t2 140) s := by
  have hheader : encInt 0x36 8 = .ok (bitsOf 0x36 8) := rfl
  change execEsg198 flt s = _
  rw [execEsg198, hheader, encInt_of_lt flt.isLt]
  rfl

theorem exec_ess96_of_not_numeral (h : ¬ Numeral s.t1) :
    exec (.ess96 flt) s = .next (s.raise Opcode.ess96.byte .eNonnum) := by
  change execEss96 flt s = _
  rw [execEss96, require_neg h, error_bind, commit_error]

theorem exec_ess96_of_numeral (h : Numeral s.t1) :
    exec (.ess96 flt) s = encodeFrame .ess96 0x31 flt .sscc (.ok (zeros 24)) s := by
  have hheader : encInt 0x31 8 = .ok (bitsOf 0x31 8) := rfl
  change execEss96 flt s = _
  rw [execEss96, require_pos h, ok_bind, hheader, encInt_of_lt flt.isLt]
  rfl

/-- The statement `SegmentChecks` about the encodes: past the checks, what is left of the command is its last field. -/
theorem encodeFrame_checks {i : Instr} {o : Opcode} {header : Nat} {fam : Family} {last : Except Cause Bits}
    {good : PartEntry → Prop} (hc : s.cfg.wf = true) (hi : exec i s = encodeFrame o header flt fam last s)
    (hh : header < 2 ^ 8)
    (hgood : ∀ e seg, seg.length = famTotal fam →
      (∀ ser, FrameStart (frame header flt seg ser) header flt e (intValue s.t0) (intValue s.t1)) →
      exec i s = commit o s (last >>= fun ser => .ok (s.emitFrame (frame header flt seg ser))) → good e) :
    SegmentChecks i s o.byte.toNat fam (famDigits fam) good := by
  refine segmentChecks_of_encSeg o hc (fun r hr => ?_) fun e hmem hv1 hv2 hseg => ?_
  · rw [hi, encodeFrame, hr, error_bind, commit_error]
  · refine hgood e _ (encSeg_length hc hseg) (fun ser => ?_) ?_
    · exact frameStart_frame hh (fits_of_mem_table hc hmem).1 hv1 hv2
    · rw [hi, encodeFrame, hseg, ok_bind]
      rfl

end

/-! ### The obligations -/

/-- Settles O42: the test of the serial, then those of `encodeFrame_checks`, then the fields of the frame. -/
theorem esg96BuildsFrame : Obligations.Esg96BuildsFrame := by
  intro flt s hc
  refine ⟨fun h => failsWith_of_raise .esg96 .eSerial96 (exec_esg96_of_invalid (mt validSerial96_iff.mp h)), fun h => ?_⟩
  refine encodeFrame_checks (o := .esg96) hc (exec_esg96_of_valid h) (by decide) fun e seg hseg hstart hexec => ?_
  have hlen : 11 + seg.length = 58 := by rw [hseg]; rfl
  refine ⟨_, _, ?_, hstart _, ?_, hexOf_binToHex _, hexec⟩
  · rw [frame_length, hlen, bitsOf_length]
  · rw [field, slice_frame_last hlen (bitsOf_length _ _), uint_bitsOf_of_lt (intValue_lt_of_validSerial96 h)]

/-- Settles O43: the tests of `encodeFrame_checks`, that of `encStr`, then the fields of the frame. -/
theorem esg198BuildsFrame : Obligations.Esg198BuildsFrame := by
  intro flt s hc
  refine encodeFrame_checks (o := .esg198) hc exec_esg198 (by decide) fun e seg hseg hstart hexec =>
    ⟨fun hlong => ?_, fun hfit => ?_⟩
  · refine failsWith_of_raise .esg198 .eStrlen ?_
    rw [hexec, encStr_of_lt hlong, error_bind, commit_error]
  · have hser := encStr_of_le (n := 140) hfit
    have hlen : 11 + seg.length = 58 := by rw [hseg]; rfl
    rw [hser, ok_bind, commit_ok] at hexec
    refine ⟨_, _, ?_, hstart _, ?_, hexOf_binToHex _, hexec⟩
    · rw [frame_length, hlen, encStr_length hser]
    · exact holds_append_packChars (frame_prefix_length.trans hlen) s.t2 _

/-- Settles O44: the test of the companion field, then those of `encodeFrame_checks`, then the fields of the frame. -/
theorem ess96BuildsFrame : Obligations.Ess96BuildsFrame := by
  intro flt s hc
  refine ⟨fun h => failsWith_of_raise .ess96 .eNonnum (exec_ess96_of_not_numeral h), fun h => ?_⟩
  refine encodeFrame_checks (o := .ess96) hc (exec_ess96_of_numeral h) (by decide) fun e seg hseg hstart hexec => ?_
  have hlen : 11 + seg.length = 72 := by rw [hseg]; rfl
  refine ⟨_, _, ?_, hstart _, ?_, hexOf_binToHex _, hexec⟩
  · rw [frame_length, hlen, zeros_length]
  · rw [field, slice_frame_last hlen (zeros_length _), uint_zeros]

set_option maxRecDepth 4000 in
/-- Settles O52: each command run on its operands, and the text it leaves compared with the quoted one. -/
theorem sourceVectors : Obligations.SourceVectors :=
  ⟨⟨_, rfl, by decide⟩, ⟨_, rfl, by decide⟩, ⟨_, rfl, by decide⟩, ⟨_, rfl, by decide⟩⟩

end Sys2Proof.Machine
end

section
/-! PROOFS. The round trips of the three frames (45_frames R172): a decode gives back the operands of the encode before
it. -/

namespace Sys2Proof.Machine

open Sys2Proof.Spec

/-- `decPart` gives back what `encSeg` encoded (43_partition R139). -/
theorem decPart_of_encSeg {c : Config} {fam : Family} {f1 f2 : Text} {b : Bits} (hc : c.wf = true)
    (h : encSeg c fam f1 f2 = .ok b) : decPart c fam b = .ok (f1, f2) := by
  obtain ⟨⟨h6, h12⟩, e, he, hlen2, hpart⟩ := encSeg_eq_ok.mp h
  obtain ⟨_, hd1, ⟨_, hd2⟩, _⟩ := encPart_eq_ok.mp hpart
  obtain ⟨hp, hw1, hw2, _⟩ := fits_of_mem_table hc ((PT_eq_some hc).mp he).1
  have hidx := ((PT_eq_some hc).mp he).2
  have hwidth : f2.length = famDigits fam - f1.length := by omega
  rw [famDigits_eq] at hwidth
  obtain ⟨_, hround⟩ := partitionRoundTrip c fam f1 f2 hc h6 h12 hd1 hd2 hwidth
  exact (hround b hpart).2

section
variable {s : State}

theorem length_emitFrame {x : Bits} {n : Nat} (h : x.length = n) : (s.emitFrame x).t3.length = (n + 3) / 4 :=
  h ▸ binToHex_length x

variable {header : Nat} {flt : BitVec 3} {seg last : Bits}

/-- The hex text of a frame begins with the two digits of its header. -/
theorem take_two_emitFrame :
    (s.emitFrame (frame header flt seg last)).t3.take 2 = hexGroups (bitsOf header 8) := by
  have htext (r : Bits) : (hexGroups (bitsOf header 8 ++ r)).take 2 = hexGroups (bitsOf header 8) := rfl
  have ht3 : (s.emitFrame (frame header flt seg last)).t3 = binToHex (frame header flt seg last) := rfl
  rw [ht3, binToHex, frame, List.append_assoc, List.append_assoc, List.append_assoc, htext]

/-- A decode of the emitted frame reads the frame's own bits and the operands of its segment. -/
theorem decodeFrame_emitFrame {o : Opcode} {fam : Family} {n : Nat} {load : Bits → Text × Text → State}
    (hc : s.cfg.wf = true) (hseg : encSeg s.cfg fam s.t0 s.t1 = .ok seg)
    (hn : (frame header flt seg last).length = n) :
    decodeFrame o fam n load (s.emitFrame (frame header flt seg last)) =
      .next (load (frame header flt seg last) (s.t0, s.t1)) := by
  subst hn
  obtain ⟨hhex, _⟩ := hexRoundTrips
  rw [decodeFrame_of_bits (hhex _), slice_frame_segment (encSeg_length hc hseg)]
  have hcfg : (s.emitFrame (frame header flt seg last)).cfg = s.cfg := rfl
  rw [hcfg, decPart_of_encSeg hc hseg, ok_bind, commit_ok]

theorem filter_frame : BitVec.ofNat 3 (uint (slice (frame header flt seg last) 8 3)) = flt := by
  rw [slice_frame_filter, uint_bitsOf_of_lt flt.isLt, BitVec.ofNat_toNat, BitVec.setWidth_eq]

end

/-! ### The obligations -/

/-- Settles O48: DSG reads the emitted frame, and the serial, which has no superfluous zero, is the decimal of its value. -/
theorem sgtin96RoundTrip : Obligations.Sgtin96RoundTrip := by
  intro flt s t hc h ht
  obtain ⟨hvalid, seg, hseg, hv, rfl⟩ := good_of_raisedOr (exec_esg96_next h) ht
  obtain ⟨⟨hne, hdigits⟩, hzero, _⟩ := validSerial96_iff.mp hvalid
  have hseg58 : 11 + seg.length = 58 := by rw [encSeg_length hc hseg]; rfl
  have hlen : (frame 0x30 flt seg (bitsOf (intValue s.t2) 38)).length = 96 := by
    rw [frame_length, hseg58, bitsOf_length]
  refine ⟨length_emitFrame hlen, _, (exec_dsg_of_header (.inl ⟨take_two_emitFrame, rfl, rfl⟩)).trans
    (decodeFrame_emitFrame hc hseg hlen), ht, rfl, rfl, ?_, filter_frame, rfl⟩
  change decInt (slice (frame 0x30 flt seg _) 58 38) = s.t2
  rw [slice_frame_last hseg58 (bitsOf_length _ _), decInt, uint_bitsOf_of_lt hv, dec_intValue hdigits hne hzero]

/-- Settles O49: DSG reads the emitted frame, and unpacking the serial drops no character but the padding. -/
theorem sgtin198RoundTrip : Obligations.Sgtin198RoundTrip := by
  intro flt s t hc h ht
  obtain ⟨seg, ser, hseg, hser, rfl⟩ := good_of_raisedOr (exec_esg198_next h) ht
  have hseg58 : 11 + seg.length = 58 := by rw [encSeg_length hc hseg]; rfl
  have hlen : (frame 0x36 flt seg ser).length = 198 := by rw [frame_length, hseg58, encStr_length hser]
  refine ⟨length_emitFrame hlen, fun hnz => ⟨_, (exec_dsg_of_header (.inr ⟨take_two_emitFrame, rfl, rfl⟩)).trans
    (decodeFrame_emitFrame hc hseg hlen), ht, rfl, rfl, ?_, filter_frame, rfl⟩⟩
  obtain ⟨b, hb, _, hround, _⟩ := stringRoundTrip s.t2 140 rfl (encStr_eq_ok.mp hser).1
  obtain rfl := Except.ok.inj (hb.symm.trans hser)
  change decStr (slice (frame 0x36 flt seg _) 58 140) = s.t2
  rw [slice_frame_last hseg58 (encStr_length hser), hround hnz]

/-- Settles O50: DSS reads the emitted frame. -/
theorem sscc96RoundTrip : Obligations.Sscc96RoundTrip := by
  intro flt s t hc h ht
  obtain ⟨_, seg, hseg, rfl⟩ := good_of_raisedOr (exec_ess96_next h) ht
  have hlen : (frame 0x31 flt seg (zeros 24)).length = 96 := by
    rw [frame_length, encSeg_length hc hseg, zeros_length]; rfl
  refine ⟨length_emitFrame hlen, _, (exec_dss_of_header take_two_emitFrame).trans
    (decodeFrame_emitFrame hc hseg hlen), ht, rfl, rfl, rfl, filter_frame, rfl⟩

end Sys2Proof.Machine
end

section
/-! PROOFS. The control commands (46_control R180 to R182): the one legal RST word, which passes the freeze (60_exceptions
R207), and the whole next state of CLR and REW. -/

namespace Sys2Proof.Machine

open Sys2Proof.Spec

/-! ### The one legal RST word (R180) -/

theorem byte_injective : Function.Injective Opcode.byte := fun a b h =>
  Option.some.inj (by rw [← ofByte_byte a, h, ofByte_byte])

/-- A legal word carries the opcode byte of its command (30_encoding R62 conditions (a) and (b)). -/
theorem fieldOp_of_decode {w : Word} {i : Instr} (h : decode w = .ok i) : fieldOp w = i.opcode.byte :=
  (matchesRow_of_and (decode_eq_ok.mp h).1).op

/-- The mask of RST covers the whole word. -/
theorem eq_rstWord_of_decode {w : Word} {i : Instr} (h : decode w = .ok i) (hop : fieldOp w = Opcode.rst.byte) :
    w = rstWord := by
  have hrst : i.opcode = .rst := byte_injective ((fieldOp_of_decode h).symm.trans hop)
  obtain ⟨hrow, _⟩ := decode_eq_ok.mp h
  rw [hrst] at hrow
  exact eq_of_and_eq hrow.symm rfl

theorem decode_rstWord : decode rstWord = .ok .rst := decodeEncodeRoundTrip .rst rfl

/-- RST passes the freeze test in every state (60_exceptions R207). -/
theorem stepCommand_rstWord (s : State) : stepCommand rstWord s = exec .rst s :=
  stepCommand_of_legal (fun ⟨_, hne⟩ => hne rfl) decode_rstWord

/-! ### The obligations -/

/-- Settles O10: RST answers `clearAll`, its word passes the freeze, and a legal word with its opcode byte is that
word. -/
theorem rstActsAlsoWhenFrozen : Obligations.RstActsAlsoWhenFrozen := by
  refine ⟨fun s => rfl, fun s rest hp => (step_of_command hp).trans (stepCommand_rstWord _), fun w hop hne => ?_⟩
  cases h : decode w with
  | error x => exact ⟨x, rfl⟩
  | ok i =>
    have hbyte : fieldOp w = Opcode.rst.byte := BitVec.eq_of_toNat_eq ((fieldOp_toNat w).trans hop)
    exact absurd (eq_rstWord_of_decode h hbyte) hne

/-- Settles O22: CLR is `loadFrame` of the empty string with the cursor at 0. -/
theorem clrEmptiesBuffer : Obligations.ClrEmptiesBuffer := fun _ => rfl

/-- Settles O23: REW is `setRC` at 0. -/
theorem rewRewindsCursor : Obligations.RewRewindsCursor := fun _ => rfl

end Sys2Proof.Machine
end

section
/-! PROOFS. Errors (60_exceptions): what a raise writes (R205), what a command that raises leaves alone (R206), the
causes that are ever recorded (R202 to R204), and the freeze along a run (R207, R212; 70_reset_and_hazards R238). -/

namespace Sys2Proof.Machine

open Sys2Proof.Spec

/-! ### The causes (R202 to R205) -/

/-- The numbers of the model are those of the spec's three tables. -/
theorem mem_causeTable (e : Cause) : (e, e.code.toNat, e.cls.toNat) ∈ causeTable := by cases e <;> decide

theorem legalStatus_raisedStatus (o : Byte) (e : Cause) : LegalStatus (raisedStatus o e) :=
  .inr ⟨_, mem_causeTable e, o.toNat, o.isLt, stWord_eq_statusOf o e.code e.cls⟩

/-! ### What a command does to ST (R206) -/

theorem byte_toNat_opcode (i : Instr) : i.opcode.byte.toNat = (fieldsOf i).1 := by cases i <;> rfl

theorem status_of_raisedOr {o : Opcode} {s t : State} {good : Prop} (h : RaisedOr o s t good)
    (hg : good → t.st = s.st) : t.st = s.st ∨ ∃ e, t = s.raise o.byte e :=
  h.symm.imp_left hg

/-- Only RST writes ST without a raise. -/
theorem exec_status_cases {i : Instr} {s t : State} (h : exec i s = .next t) :
    (i = .rst ∧ t = s.clearAll) ∨ t.st = s.st ∨ ∃ e, t = s.raise i.opcode.byte e := by
  cases i with
  | rst => exact .inl ⟨rfl, exec_rst_next h⟩
  | clr => exact .inr (.inl (exec_clr_next h ▸ rfl))
  | rew => exact .inr (.inl (exec_rew_next h ▸ rfl))
  | enci ta n => exact .inr (status_of_raisedOr (exec_enci_next h) fun ⟨_, _, _, ht⟩ => ht ▸ rfl)
  | encii imm n => exact .inr (status_of_raisedOr (exec_encii_next h) fun ⟨_, _, ht⟩ => ht ▸ rfl)
  | deci ta n => exact .inr (status_of_raisedOr (exec_deci_next h) fun ⟨_, _, ht⟩ => ht ▸ s.setT_st ta _)
  | encs ta n => exact .inr (status_of_raisedOr (exec_encs_next h) fun ⟨_, _, ht⟩ => ht ▸ rfl)
  | decs ta n => exact .inr (status_of_raisedOr (exec_decs_next h) fun ⟨_, _, ht⟩ => ht ▸ s.setT_st ta _)
  | b2h ta => exact .inr (.inl (exec_b2h_next h ▸ s.setT_st ta _))
  | h2b ta n => exact .inr (status_of_raisedOr (exec_h2b_next h) fun ⟨_, _, _, ht⟩ => ht ▸ rfl)
  | encp fam ta tb => exact .inr (status_of_raisedOr (exec_encp_next h) fun ⟨_, _, _, ht⟩ => ht ▸ rfl)
  | decp fam ta tb =>
    exact .inr (status_of_raisedOr (exec_decp_next h) fun ⟨_, _, _, _, ht⟩ =>
      ht ▸ (State.setT_st _ tb _).trans (s.setT_st ta _))
  | chk ta tb => exact .inr (status_of_raisedOr (exec_chk_next h) fun ⟨_, ht⟩ => ht ▸ s.setT_st tb _)
  | esg96 flt => exact .inr (status_of_raisedOr (exec_esg96_next h) fun ⟨_, _, _, _, ht⟩ => ht ▸ rfl)
  | esg198 flt => exact .inr (status_of_raisedOr (exec_esg198_next h) fun ⟨_, _, _, _, ht⟩ => ht ▸ rfl)
  | ess96 flt => exact .inr (status_of_raisedOr (exec_ess96_next h) fun ⟨_, _, _, ht⟩ => ht ▸ rfl)
  | dsg => exact .inr (status_of_raisedOr (exec_dsg_next h) fun ⟨_, _, _, _, _, _, ht⟩ => ht ▸ rfl)
  | dss => exact .inr (status_of_raisedOr (exec_dss_next h) fun ⟨_, _, _, _, _, ht⟩ => ht ▸ rfl)

theorem keptByParts_legalStatus : KeptByParts fun s => LegalStatus s.st where
  withPending _ _ hs := hs
  load s i x _ hs := (s.setT_st i x).symm ▸ hs
  answer _ _ hs := hs
  raise _ o e _ := legalStatus_raisedStatus o e
  exec i s t h hs := by
    obtain ⟨-, rfl⟩ | hst | ⟨e, rfl⟩ := exec_status_cases h
    · exact .inl rfl
    · exact hst.symm ▸ hs
    · exact legalStatus_raisedStatus _ e

/-! ### One host action (10_state R34) and the freeze (R207) -/

/-- Everything one host action can do. It loads a register, records an error or runs a command only where the block is
not frozen or the action clears the error. -/
inductive ActionEffect (a : HostAction) (s : State) : State → Prop
  | kept : ActionEffect a s s
  | answered (r : HostReply) : ActionEffect a s (s.answer r)
  | loaded (i : TReg) (x : Text) (hf : s.frozen = true → a.clears = true) : ActionEffect a s (s.setT i x)
  | recorded (o : Byte) (e : Cause) (hf : s.frozen = true → a.clears = true) : ActionEffect a s (s.raise o e)
  | ran (i : Instr) (t : State) (hf : s.frozen = true → a.clears = true) (h : exec i s = .next t) : ActionEffect a s t

theorem loadT_effect {i : TReg} {x : Text} {s t : State} (h : stepAction (.loadT i x) s = .next t) :
    ActionEffect (.loadT i x) s t := by
  by_cases hx : x.length ≤ s.cfg.txcap
  · obtain rfl : _ = t := Host.Outcome.next.inj ((hostLoadT_of_le hx).symm.trans h)
    split
    next hst => exact .loaded i x fun hf => absurd hst (State.frozen_iff.mp hf)
    next => exact .kept
  · cases (hostLoadT_of_lt (not_le.mp hx)).symm.trans h

theorem command_effect {w : Word} {s t : State} (h : stepCommand w s = .next t) : ActionEffect (.command w) s t := by
  by_cases hf : s.frozen = true ∧ w ≠ rstWord
  · cases (stepCommand_of_frozen hf.1 hf.2).symm.trans h
    exact .kept
  · have hclears (hs : s.frozen = true) : (HostAction.command w).clears = true :=
      decide_eq_true (not_not.mp fun hw => hf ⟨hs, hw⟩)
    cases hw : decode w with
    | error x =>
      cases (stepCommand_of_illegal hf hw).symm.trans h
      exact .recorded _ _ hclears
    | ok i => exact .ran i t hclears ((stepCommand_of_legal hf hw).symm.trans h)

theorem stepAction_effect {a : HostAction} {s t : State} (h : stepAction a s = .next t) : ActionEffect a s t := by
  cases a with
  | loadT i x => exact loadT_effect h
  | readT i => cases h; exact .answered _
  | readFB => cases h; exact .answered _
  | readStatus => cases h; exact .answered _
  | command w => exact command_effect h
  | hardwareReset => exact .ran .rst t (fun _ => rfl) h

theorem ActionEffect.pending {a : HostAction} {s t : State} (h : ActionEffect a s t) : t.pending = s.pending := by
  cases h with
  | kept => rfl
  | answered r => rfl
  | loaded i x _ => exact s.setT_pending i x
  | recorded o e _ => rfl
  | ran i _ _ h => exact (exec_keepsColumns h).pending

theorem State.sameRegisters.refl (s : State) : s.sameRegisters s := ⟨rfl, rfl, fun _ => rfl, rfl, rfl, rfl⟩

theorem State.sameRegisters.trans {s t u : State} (h : s.sameRegisters t) (h' : t.sameRegisters u) :
    s.sameRegisters u := by
  obtain ⟨hfb, hrc, ht, hflt, hhdr, hst⟩ := h
  obtain ⟨hfb', hrc', ht', hflt', hhdr', hst'⟩ := h'
  exact ⟨hfb'.trans hfb, hrc'.trans hrc, fun i => (ht' i).trans (ht i), hflt'.trans hflt, hhdr'.trans hhdr,
    hst'.trans hst⟩

theorem State.sameRegisters.st_eq {s t : State} (h : s.sameRegisters t) : t.st = s.st := by
  obtain ⟨_, _, _, _, _, hst⟩ := h
  exact hst

theorem State.sameRegisters_answer (s : State) (r : HostReply) : s.sameRegisters (s.answer r) :=
  ⟨rfl, rfl, s.answer_getT r, rfl, rfl, rfl⟩

theorem State.sameRegisters_withPending (s : State) (as : List HostAction) : s.sameRegisters (s.withPending as) :=
  ⟨rfl, rfl, s.withPending_getT as, rfl, rfl, rfl⟩

/-- The freeze (R207): what is left for an action that clears nothing is to be ignored or to be a read. -/
theorem ActionEffect.sameRegisters_of_frozen {a : HostAction} {s t : State} (h : ActionEffect a s t)
    (hs : s.frozen = true) (ha : a.clears = false) : s.sameRegisters t := by
  have hblocked : ¬ (s.frozen = true → a.clears = true) := fun hf => Bool.false_ne_true (ha.symm.trans (hf hs))
  cases h with
  | kept => exact .refl s
  | answered r => exact s.sameRegisters_answer r
  | loaded _ _ hf => exact absurd hf hblocked
  | recorded _ _ hf => exact absurd hf hblocked
  | ran _ _ hf _ => exact absurd hf hblocked

/-! ### One step, and a run of one step more -/

theorem run_succ_next {M : Host.Core} {k : Nat} {s t : M.State} (h : M.run (k + 1) s = .next t) :
    ∃ u, M.step s = .next u ∧ M.run k u = .next t := by
  rw [Host.Core.run] at h
  cases hu : M.step s with
  | next u => exact ⟨u, rfl, by rwa [hu] at h⟩
  | fault r => rw [hu] at h; cases h
  | refused r => rw [hu] at h; cases h

section
variable {s t : State}

/-- A step takes the first host action off the list and adds none. -/
theorem step_pending (h : step s = .next t) : t.pending = s.pending.tail := by
  cases hp : s.pending with
  | nil =>
    cases (step_of_idle hp).symm.trans h
    exact hp
  | cons a rest => exact (stepAction_effect ((step_of_pending hp).symm.trans h)).pending

theorem step_keeps_no_clearing (hn : ∀ a ∈ s.pending, a.clears = false) (h : step s = .next t) :
    ∀ a ∈ t.pending, a.clears = false :=
  fun a ha => hn a (List.mem_of_mem_tail (step_pending h ▸ ha))

theorem step_sameRegisters_of_frozen (hs : stErr s.st ≠ 0) (hn : ∀ a ∈ s.pending, a.clears = false)
    (h : step s = .next t) : s.sameRegisters t := by
  cases hp : s.pending with
  | nil =>
    cases (step_of_idle hp).symm.trans h
    exact .refl s
  | cons a rest =>
    have heff := stepAction_effect ((step_of_pending hp).symm.trans h)
    exact (s.sameRegisters_withPending rest).trans
      (heff.sameRegisters_of_frozen (State.frozen_iff.mpr hs) (hn a (hp ▸ List.mem_cons_self)))

end

/-! ### The obligations -/

/-- Settles O4: the row of the cause, and ST in the numbers of the spec. -/
theorem raiseWritesStatusOnly : Obligations.RaiseWritesStatusOnly := fun s eop e =>
  ⟨_, _, mem_causeTable e, s.raise_eq_statusOf eop e⟩

/-- Settles O5: a command other than RST that changes ST has raised. -/
theorem allOrNothing : Obligations.AllOrNothing := by
  intro i s t h
  obtain ⟨hi, -⟩ | hst | ⟨e, rfl⟩ := exec_status_cases h
  · exact .inl hi
  · exact .inr (.inl hst)
  · refine .inr (.inr ⟨rfl, State.frozen_iff.mp (s.raise_frozen _ e), ?_⟩)
    rw [State.raise_st, raisedStatus, stEop_stWord, byte_toNat_opcode]

/-- Settles O15: every part of a step leaves ST, clears it or records a cause. -/
theorem stepKeepsLegalStatus : Obligations.StepKeepsLegalStatus := fun _ _ hs h => keptByParts_legalStatus.step h hs

/-- Settles O11, by induction on the number of steps: a step of a frozen block keeps ST, so the block stays frozen,
and it adds no host action. -/
theorem freezeHoldsThroughRun : Obligations.FreezeHoldsThroughRun := by
  intro k
  induction k with
  | zero =>
    intro s t _ _ h
    cases h
    exact .refl s
  | succ k ih =>
    intro s t hs hn h
    obtain ⟨u, hu, hrun⟩ := run_succ_next h
    have hsame := step_sameRegisters_of_frozen hs hn hu
    exact hsame.trans (ih u t (hsame.st_eq ▸ hs) (step_keeps_no_clearing hn hu) hrun)

/-- The freeze read backwards: a run that ends with no error began with none. -/
theorem succeeded_of_run {k : Nat} {s t : State} (hn : ∀ a ∈ s.pending, a.clears = false)
    (h : Host.Core.run core k s = .next t) (ht : t.succeeded) : s.succeeded := by
  by_contra hs
  have hst := (freezeHoldsThroughRun k s t hs hn h).st_eq
  exact hs ((congrArg stErr hst).symm.trans ht)

/-- Settles O12, by induction on the earlier point of the run: the rest of the run succeeds, so it began with no
error. -/
theorem succeededRunNeverRaised : Obligations.SucceededRunNeverRaised := by
  intro k s t hn h ht j
  induction j generalizing k s with
  | zero =>
    intro _ u hu
    cases hu
    exact succeeded_of_run hn h ht
  | succ j ih =>
    intro hjk u hu
    obtain ⟨k, rfl⟩ := Nat.exists_eq_add_one_of_ne_zero (Nat.ne_zero_of_lt hjk)
    obtain ⟨v, hv, hrun⟩ := run_succ_next h
    obtain ⟨v', hv', hrun'⟩ := run_succ_next hu
    cases hv.symm.trans hv'
    exact ih k v (step_keeps_no_clearing hn hv) hrun (Nat.le_of_succ_le_succ hjk) u hrun'

end Sys2Proof.Machine
end

section
/-! PROOFS. The port (70_reset_and_hazards): what its outputs carry and its text load (R236), and the completion of
every command (R237). -/

namespace Sys2Proof.Machine

/-! ### A register on a wider output (R236) -/

/-- A list filled up to `n` places: the list itself, and the filler beyond it. -/
theorem padded_reads {α : Type} {xs : List α} {n : Nat} (a : α) (h : xs.length ≤ n) :
    (xs ++ List.replicate (n - xs.length) a).length = n ∧
    (∀ k < xs.length, (xs ++ List.replicate (n - xs.length) a)[k]? = xs[k]?) ∧
    ∀ k, xs.length ≤ k → k < n → (xs ++ List.replicate (n - xs.length) a)[k]? = some a := by
  refine ⟨by simp [h], fun k hk => List.getElem?_append_left hk, fun k hk hkn => ?_⟩
  rw [List.getElem?_append_right hk, List.getElem?_replicate_of_lt (by omega)]

/-! ### The text load (R236) -/

section
variable {i : TReg} {wlen : BitVec 6} {wdata : Text} {s : State}

theorem portLoad_of_lt (h : s.cfg.txcap < wlen.toNat) : portLoad i wlen wdata s = .refused .hostTextTooLong := if_pos h

theorem portLoad_of_le (h : wlen.toNat ≤ s.cfg.txcap) :
    portLoad i wlen wdata s = hostLoadT i (wdata.take wlen.toNat) s := if_neg h.not_gt

end

/-! ### The obligations -/

/-- Settles O53: each output is a register, its number in a field that is wide enough for it, or its list filled up. -/
theorem portOutputs : Obligations.PortOutputs := by
  intro s hs
  obtain ⟨_, hcap, _⟩ := Config.wf_caps hs.cfg_wf
  have hfb := hs.fb_length_le
  have hrc := hs.rc_le
  obtain ⟨hlen, hreg, hpad⟩ := padded_reads false hfb
  refine ⟨State.frozen_iff, Nat.mod_eq_of_lt (by omega), Nat.mod_eq_of_lt (by omega), hlen, hreg, hpad, fun i => ?_⟩
  exact ⟨Nat.mod_eq_of_lt, padded_reads 0 (hs.text_fits i)⟩

/-- Settles O54: a `t_wlen` within TXCAP is the length of the text that HostLoadT loads. -/
theorem portTextLoad : Obligations.PortTextLoad := by
  intro i wlen wdata s hdata
  refine ⟨portLoad_of_lt, fun hw => ?_⟩
  have hlen : (wdata.take wlen.toNat).length = wlen.toNat := List.length_take_of_le (hdata ▸ hw)
  exact ⟨(portLoad_of_le hw).trans (hostLoadT_of_le (hlen.trans_le hw)), hlen⟩

theorem commit_completes (o : Opcode) (s : State) (r : Except Cause State) : ∃ t, commit o s r = .next t := by
  obtain ⟨t, _, ht⟩ | ⟨e, _, ht⟩ := commit_cases o s r
  · exact ⟨t, ht⟩
  · exact ⟨_, ht⟩

/-- Settles O6: the control commands and B2H cannot fail, and every other command ends in `commit`. -/
theorem everyCommandCompletes : Obligations.EveryCommandCompletes := by
  intro i s
  cases i with
  | rst | clr | rew | b2h ta => exact ⟨_, rfl⟩
  | _ => exact commit_completes _ s _

end Sys2Proof.Machine
end
